-- ==== Sys2Proof/Word.lean ====
section
/-! DEFINITION. The two widths data has in this hardware: a host register is 32 bits (00_scope.md R5, REG_W), a sample is
8 bits (R4, SAMPLE_W). -/

namespace Sys2Proof

/-- A host register value or a command word: 32 bits (00_scope.md R5). -/
abbrev Word := BitVec 32

/-- One sample, one byte of pixel memory (00_scope.md R4). -/
abbrev Byte := BitVec 8

end Sys2Proof
end

