-- ==== Sys2Proof/Syntax.lean ====
section
/-! DEFINITION. The four commands of the opcode map (30_encoding.md section 2). -/

namespace Sys2Proof

/-- A command: one constructor per row of the opcode table. SEED and SLIDE are no commands: they have no encoding and
the HOST cannot issue them (30_encoding.md R70). -/
inductive Instr where
  /-- NOP (R63, R130). -/
  | nop
  /-- BLUR (R64, R111). Its operands are host registers, none stands in the word. -/
  | blur
  /-- DIVC a (R65, R87): `a` is the table index carried in ARG, an unsigned number 0..255 (R62). -/
  | divc (a : Nat)
  /-- ACK (R66, R131). -/
  | ack
  deriving DecidableEq, Repr

end Sys2Proof
end

