-- ==== Sys2Proof/WellFormed.lean ====
section
/-! DEFINITION. Which commands a command word can express. -/

namespace Sys2Proof

/-- The operand of DIVC fits the 8-bit field ARG (30_encoding.md R61, R65: `0 <= a <= 255`); the other commands carry
no operand. -/
def WellFormed : Instr → Bool
  | .nop => true
  | .blur => true
  | .divc a => decide (a < 256)
  | .ack => true

end Sys2Proof
end

