-- ==== Sys2Proof/Decode.lean ====
section
/-! DEFINITION. Command words: the decoder of 30_encoding.md R68, total on 32-bit words, and the encoder of R61 to R66. -/

namespace Sys2Proof

/-- Why a word is ILLEGAL (30_encoding.md R67). All three raise the same IllegalCommand; the reason is kept for the reader. -/
inductive Illegal where
  /-- RSV is not 0, whatever OPC is. -/
  | reservedField
  /-- ARG is not 0 in a command without an operand, or beside an unassigned OPC. -/
  | argField
  /-- OPC in 0x04..0xFF with ARG and RSV 0. -/
  | opcode
  deriving DecidableEq, Repr

/-- What a word decodes to. -/
inductive Decoded where
  | command (i : Instr)
  | illegal (why : Illegal)
  deriving DecidableEq, Repr

/-- OPC, bits [7:0] (R61). -/
def opcField (w : Word) : BitVec 8 := w.extractLsb' 0 8

/-- ARG, bits [15:8] (R61). -/
def argField (w : Word) : BitVec 8 := w.extractLsb' 8 8

/-- RSV, bits [31:16] (R61). -/
def rsvField (w : Word) : BitVec 16 := w.extractLsb' 16 16

/-- The decoder of R68, test by test. -/
def decode (w : Word) : Decoded :=
  if rsvField w ≠ 0 then .illegal .reservedField
  else if opcField w = 0x02 then .command (.divc (argField w).toNat)
  else if argField w ≠ 0 then .illegal .argField
  else if opcField w = 0x00 then .command .nop
  else if opcField w = 0x01 then .command .blur
  else if opcField w = 0x03 then .command .ack
  else .illegal .opcode

/-- The word of format C with the given OPC in [7:0] and ARG in [15:8]; RSV is 0 (R61). -/
def commandWord (opc arg : BitVec 8) : Word := BitVec.ofNat 32 (arg.toNat * 0x100 + opc.toNat)

/-- The word of a command (R63 to R66). -/
def encode : Instr → Word
  | .nop => commandWord 0x00 0
  | .blur => commandWord 0x01 0
  | .divc a => commandWord 0x02 (BitVec.ofNat 8 a)
  | .ack => commandWord 0x03 0

/-- The command a word stands for, if it is one of the 259 legal words (R67). -/
def decodeInstr (w : Word) : Option Instr :=
  match decode w with
  | .command i => some i
  | .illegal _ => none

/-- The command word a row of the opcode table gives: `nbits` bits numbered from bit 0 of the word. Command words are
written whole, so no byte order enters (20_memory.md R44); a number that does not fit 32 bits is no command word. -/
def tableWord (nbits w : Nat) : Option Word :=
  if w % 2 ^ nbits < 2 ^ 32 then some (BitVec.ofNat 32 (w % 2 ^ nbits)) else none

/-- The command this decoder reads from a row's bits. -/
def decodeTableWord (nbits w : Nat) : Option Instr :=
  (tableWord nbits w).bind decodeInstr

end Sys2Proof
end

