-- ==== Sys2Proof/Config.lean ====
section
/-! DEFINITION. What a platform fixes (00_scope.md R6) and the values the spec leaves free (93_implementation_defined.md U3, U4). -/

namespace Sys2Proof

/-- The two open parameters of 00_scope.md R6, fixed for a machine: no step changes them. -/
structure Platform where
  /-- `REG_BASE`: the HOST's address of CMD. -/
  regBase : Nat
  /-- `PIX_SIZE`: how many bytes of pixel memory exist. -/
  pixSize : Nat
  deriving DecidableEq, Repr

/-- The constraints on the parameters: `REG_BASE` is a multiple of 4 (92_eei_decisions.md D4) and
`0 <= PIX_SIZE <= 2^32` (20_memory.md R41). -/
abbrev Platform.wf (p : Platform) : Prop := p.regBase % 4 = 0 ∧ p.pixSize ≤ 2 ^ 32

/-- DESIGN CHOICE (log 4): the platform of `State.reset`. The spec leaves both parameters open. -/
def Platform.nominal : Platform where
  regBase := 0
  pixSize := 2 ^ 32

/-- Free value (log 2): the byte a reset that arrives while busy leaves at an R, G or B address of the buffer
(70_reset_and_hazards.md R171, "unspecified"). Nothing is known of it. -/
opaque Config.freePix (draw addr : Nat) : Byte

/-- Free value (log 2): what an internal register holds after a reset during a run (10_state.md R31, "unspecified").
`slot` numbers the registers. Nothing is known of it. -/
opaque Config.freeReg (draw slot : Nat) : Word

end Sys2Proof
end

