-- ==== Sys2Proof/Machine/State.lean ====
section
/-! DEFINITION. Everything the spec gives the machine, as plain data (10_state.md, 20_memory.md R41, R47), and the state
after reset (10_state.md R31). -/

namespace Sys2Proof.Machine

/-- STATUS.PHASE (10_state.md R12). -/
inductive Phase where
  | idle | rowpass | colpass | done
  deriving DecidableEq, Repr

/-- STATUS.RESULT (10_state.md R12); the code 3 has no name because it never occurs. -/
inductive Result where
  | none | ok | fail
  deriving DecidableEq, Repr

/-- STATUS.ERRCODE (10_state.md R12, 60_exceptions.md R140); codes 4 to 15 never occur. -/
inductive ErrCode where
  | none | invalidRadius | bufferSizeMismatch | illegalCommand
  deriving DecidableEq, Repr

/-- Which of the two passes the ENGINE is in (42_blur_command.md R112, R113). -/
inductive Pass where
  | row | col
  deriving DecidableEq, Repr

/-- The sequencer's SUB bit (10_state.md R20): which micro-step comes next. -/
inductive Sub where
  | seeding | sliding
  deriving DecidableEq, Repr

/-- A blurred channel (41_sweep_kernel.md R98). Alpha is none: it has no lane. -/
inductive Chan where
  | r | g | b
  deriving DecidableEq, Repr

/-- The accumulators and the ring column of one channel (10_state.md R22, R27). -/
structure Lane where
  /-- SUM[c], the triangle-weighted total of the window. -/
  sum : BitVec 24
  /-- INSUM[c], the plain sum of the leading half. -/
  insum : BitVec 16
  /-- OUTSUM[c], the plain sum of the trailing half. -/
  outsum : BitVec 16
  /-- RING[0..508][c], one sample a node. -/
  ring : Vector Byte 509
  deriving DecidableEq, Repr

/-- One lane per blurred channel. -/
structure Lanes where
  r : Lane
  g : Lane
  b : Lane
  deriving DecidableEq, Repr

/-- The eight host registers (10_state.md R10). -/
inductive HostReg where
  | cmd | status | width | height | radius | bufLen | dtMul | dtShift
  deriving DecidableEq, Repr

/-- What one of the three agents does next (00_scope.md section 6): the statements of 30_encoding.md R71, the reset input
(70_reset_and_hazards.md R170) and the ENGINE's turn. An access names an address and a width in bits, so that accesses
which are none of this block's (20_memory.md R51) can be written down too. -/
inductive Event where
  /-- HOST writes `data` at `addr`, `bits` wide. -/
  | write (addr bits : Nat) (data : Word)
  /-- HOST reads at `addr`, `bits` wide. -/
  | read (addr bits : Nat)
  /-- HOST writes the byte `b` to `PIX[addr]`. -/
  | pixWrite (addr : Nat) (b : Byte)
  /-- HOST reads `PIX[addr]`. -/
  | pixRead (addr : Nat)
  /-- HOST reads STATUS until the block is not busy. -/
  | wait
  /-- The HOST is silent for one turn: ENGINE takes a micro-step if it has one. -/
  | engine
  /-- RESET asserts the reset input. -/
  | resetAssert
  /-- RESET releases the reset input. -/
  | resetRelease
  deriving DecidableEq, Repr

/-- A value a HOST read returned. -/
inductive Reply where
  | reg (v : Word)
  | pix (b : Byte)
  deriving DecidableEq, Repr

/-- Pixel memory: the bytes that differ from what an unlisted address reads as, in rising order of address. -/
abbrev Pix := List Host.Cell

/-- Why a step stops with a fault. -/
inductive Fault where
  /-- HOST or ENGINE accesses PIX at or above PIX_SIZE, where no byte exists (00_scope.md section 7, 20_memory.md R41).
  ENGINE cannot raise it in a state that a run reaches. Safe: nothing is claimed of such an access. -/
  | pixOutOfRange
  /-- A micro-step names a ring node above 508 (10_state.md R27): R above 254, or a cursor above 508. No state that a run
  reaches raises it. Safe. -/
  | ringOutOfRange
  /-- A micro-step runs on a scanline of length 0, for which the spec gives no meaning (42_blur_command.md R119). No state
  that a run reaches raises it. Safe. -/
  | emptyScanline
  deriving DecidableEq, Repr

/-- Why a step is refused. -/
inductive Refusal where
  /-- A command that has no meaning in this model yet, by its mnemonic. No arm of `exec` answers with it. Safe. -/
  | notModelled (mnemonic : String)
  /-- BLUR, otherwise accepted, with BUF_LEN above PIX_SIZE (93_implementation_defined.md U2). Safe. -/
  | bufferBeyondPix
  /-- HOST touches a byte of the PixelBuffer while it is lent to the ENGINE (93_implementation_defined.md U1). Safe. -/
  | pixLent
  /-- HOST accesses the register block with another width than 32 bits or off the eight offsets
  (93_implementation_defined.md U6). Safe. -/
  | registerAccess
  /-- HOST accesses registers or PIX while the reset input is asserted (93_implementation_defined.md U14). Safe. -/
  | accessDuringReset
  deriving DecidableEq, Repr

/-- The machine. -/
structure State where
  /-- The open parameters (00_scope.md R6). -/
  platform : Platform
  /-- The reset input is asserted (70_reset_and_hazards.md R170). -/
  resetIn : Bool
  /-- STATUS[1:0] (10_state.md R12). -/
  phase : Phase
  /-- STATUS[3:2] (R12). -/
  result : Result
  /-- STATUS[7:4] (R12). -/
  errcode : ErrCode
  /-- WIDTH (R14). -/
  width : Word
  /-- HEIGHT (R15). -/
  height : Word
  /-- RADIUS (R16). -/
  radius : Word
  /-- BUF_LEN (R17). -/
  bufLen : Word
  /-- DT_MUL (R18). -/
  dtMul : Word
  /-- DT_SHIFT[7:0] (R19). -/
  dtShift : BitVec 8
  /-- LINE (R20). -/
  line : Word
  /-- POS (R20). -/
  pos : Word
  /-- SUB (R20). -/
  sub : Sub
  /-- W, latched (R21). -/
  latW : Word
  /-- H, latched (R21). -/
  latH : Word
  /-- R, latched (R21). -/
  latR : BitVec 8
  /-- MUL, latched (R21). -/
  latMul : Word
  /-- SH, latched (R21). -/
  latSh : BitVec 8
  /-- SUM, INSUM, OUTSUM and RING (R22, R27). -/
  lanes : Lanes
  /-- HEAD (R28). -/
  head : BitVec 9
  /-- TAIL (R28). -/
  tail : BitVec 9
  /-- PIX (20_memory.md R41). -/
  pix : Pix
  /-- PIX[0 .. loan-1] is lent to the ENGINE (20_memory.md R47, 70_reset_and_hazards.md R173). -/
  loan : Nat
  /-- The model's own: what the agents do next, oldest first (log 6). -/
  events : List Event
  /-- The model's own: what the HOST's reads returned, newest first (log 6). -/
  replies : List Reply
  /-- The model's own: how many times a free value has been drawn (log 2). -/
  draws : Nat
  deriving DecidableEq, Repr

/-- DESIGN CHOICE (log 1): what a lane holds after reset; the spec leaves it unspecified (10_state.md R31). -/
def Lane.zero : Lane where
  sum := 0
  insum := 0
  outsum := 0
  ring := Vector.replicate 509 0

/-- The machine right after reset (10_state.md R31, 70_reset_and_hazards.md R170), the reset input released. STATUS, the
four argument registers, DT_MUL and DT_SHIFT are 0 as the spec says. The internal registers, which the spec leaves
unspecified, are 0 by DESIGN CHOICE (log 1); the platform is log 4's; PIX lists nothing (log 3). -/
def State.reset : State where
  platform := Platform.nominal
  resetIn := false
  phase := .idle
  result := .none
  errcode := .none
  width := 0
  height := 0
  radius := 0
  bufLen := 0
  dtMul := 0
  dtShift := 0
  line := 0
  pos := 0
  sub := .seeding
  latW := 0
  latH := 0
  latR := 0
  latMul := 0
  latSh := 0
  lanes := ⟨Lane.zero, Lane.zero, Lane.zero⟩
  head := 0
  tail := 0
  pix := []
  loan := 0
  events := []
  replies := []
  draws := 0

end Sys2Proof.Machine
end

