-- ==== Sys2Proof/Machine/Flags.lean ====
section
/-! DEFINITION. The only flags of the block: the fields of STATUS and the word a HOST read of it returns (10_state.md R12). -/

namespace Sys2Proof.Machine

/-- PHASE as STATUS[1:0] shows it. -/
def Phase.code : Phase → BitVec 2
  | .idle => 0
  | .rowpass => 1
  | .colpass => 2
  | .done => 3

/-- RESULT as STATUS[3:2] shows it. -/
def Result.code : Result → BitVec 2
  | .none => 0
  | .ok => 1
  | .fail => 2

/-- ERRCODE as STATUS[7:4] shows it; also the code of the error (60_exceptions.md R140). -/
def ErrCode.code : ErrCode → BitVec 4
  | .none => 0
  | .invalidRadius => 1
  | .bufferSizeMismatch => 2
  | .illegalCommand => 3

/-- The word a HOST read of STATUS returns: PHASE in [1:0], RESULT in [3:2], ERRCODE in [7:4], zero above (R12). -/
def State.statusWord (s : State) : Word :=
  BitVec.ofNat 32 (s.errcode.code.toNat * 2 ^ 4 + s.result.code.toNat * 2 ^ 2 + s.phase.code.toNat)

/-- The running pass, if there is one. -/
def Phase.pass? : Phase → Option Pass
  | .idle => none
  | .rowpass => some .row
  | .colpass => some .col
  | .done => none

/-- "The block is busy exactly when PHASE is ROWPASS or COLPASS" (10_state.md R13). -/
def State.busy (s : State) : Bool := s.phase.pass?.isSome

end Sys2Proof.Machine
end

