-- ==== Sys2Proof/Machine/Operands.lean ====
section
/-! DEFINITION. Every operand form: the operands BLUR reads (42_blur_command.md R110), the scanline addresses and the clamp
(20_memory.md R45, R46), the DivisionTable and the fixed-point divide (40_division_table.md R81, R83). All arithmetic is
exact, on natural numbers or integers (00_scope.md section 7). -/

namespace Sys2Proof.Machine

/-! ### BLUR's operands -/

/-- `w = zext_32(x[WIDTH])`. -/
def State.argW (s : State) : Nat := s.width.toNat

/-- `h = zext_32(x[HEIGHT])`. -/
def State.argH (s : State) : Nat := s.height.toNat

/-- `r = sext_32(x[RADIUS])`. -/
def State.argR (s : State) : Int := s.radius.toInt

/-- `len = zext_32(x[BUF_LEN])`. -/
def State.argLen (s : State) : Nat := s.bufLen.toNat

/-! ### The pass -/

/-- `N`, the length of a scanline: W in ROWPASS, H in COLPASS (00_scope.md section 8). -/
def State.lineLength (s : State) : Pass → Nat
  | .row => s.latW.toNat
  | .col => s.latH.toNat

/-- `L`, the number of scanlines: H in ROWPASS, W in COLPASS. -/
def State.lineCount (s : State) : Pass → Nat
  | .row => s.latH.toNat
  | .col => s.latW.toNat

/-- The channel's number in a pixel: 0 R, 1 G, 2 B (20_memory.md R42). -/
def Chan.idx : Chan → Nat
  | .r => 0
  | .g => 1
  | .b => 2

/-- `A(p, l, q, c)` for an image of width `w` (20_memory.md R45). -/
def pixAddr (w : Nat) (p : Pass) (l q : Nat) (c : Chan) : Nat :=
  match p with
  | .row => (l * w + q) * 4 + c.idx
  | .col => (q * w + l) * 4 + c.idx

/-- `clampc(p, N) = min(max(p, 0), N - 1)`, defined for `N >= 1` (00_scope.md section 7). -/
def clampc (p : Int) (n : Nat) : Nat := (min (max p 0) ((n : Int) - 1)).toNat

/-- The address of the sample at coordinate `p` of the running line, clamped to the scanline (20_memory.md R46). -/
def State.sampleAddr (s : State) (p : Pass) (coord : Nat) (c : Chan) : Nat :=
  pixAddr s.latW.toNat p s.line.toNat (clampc coord (s.lineLength p)) c

/-- The address of the output at position POS of the running line (20_memory.md R45). -/
def State.outAddr (s : State) (p : Pass) (c : Chan) : Nat :=
  pixAddr s.latW.toNat p s.line.toNat s.pos.toNat c

/-! ### The DivisionTable -/

/-- `d = (r + 1) * (r + 1)`. -/
def divisor (r : Nat) : Nat := (r + 1) * (r + 1)

/-- `shift`, the least `s` with `2^s > 256 * d` (R81): one more than the logarithm of `256 * d`, rounded down. -/
def tableShift (r : Nat) : Nat := (256 * divisor r).log2 + 1

/-- `mul = ceil(2^shift / d) = (2^shift + d - 1) // d` (R81). -/
def tableMul (r : Nat) : Nat := (2 ^ tableShift r + divisor r - 1) / divisor r

/-- `mul` of `DIVTAB(r)` as the table holds it, 32 bits (10_state.md R30). -/
def divtabMul (r : Nat) : Word := BitVec.ofNat 32 (tableMul r)

/-- `shift` of `DIVTAB(r)` as the table holds it, 8 bits (10_state.md R30). -/
def divtabShift (r : Nat) : BitVec 8 := BitVec.ofNat 8 (tableShift r)

/-- `(S * mul) >> shift`, the product exact and the shift a floor (R83). -/
def mulShift (S mul shift : Nat) : Nat := S * mul / 2 ^ shift

/-- `fpdiv(S, r)` (R83). -/
def fpdiv (S r : Nat) : Nat := mulShift S (tableMul r) (tableShift r)

/-- `clamp255(v)` for a non-negative `v` (00_scope.md section 7). -/
def clamp255 (v : Nat) : Nat := min v 255

end Sys2Proof.Machine
end

