-- ==== Sys2Proof/Machine/Ops.lean ====
section
/-! DEFINITION. The named operations over memory and registers: PIX bytes, lanes, host registers, the record in STATUS,
raising an error and clearing it, and the reset input. -/

namespace Sys2Proof.Machine

/-- What a step answers. -/
abbrev Out := Host.Outcome State Fault Refusal

/-! ### Pixel memory (20_memory.md R41, R43) -/

/-- DESIGN CHOICE (log 3): what a PIX byte nobody has written reads as. -/
def pixPowerOn (_addr : Nat) : Byte := 0

/-- The byte at `addr`. -/
def Pix.read (m : Pix) (addr : Nat) : Byte :=
  match m.find? (fun cell => cell.1 == addr) with
  | some cell => cell.2
  | none => pixPowerOn addr

/-- `m` with the byte at `addr` replaced by `b`, in canonical form. -/
def Pix.write (m : Pix) (addr : Nat) (b : Byte) : Pix :=
  let rest := m.filter (fun cell => cell.1 != addr)
  if b = pixPowerOn addr then rest
  else rest.takeWhile (fun cell => decide (cell.1 < addr)) ++
    (addr, b) :: rest.dropWhile (fun cell => decide (cell.1 < addr))

/-- The canonical form: addresses strictly rising, and no entry equal to what an unlisted address reads as. -/
abbrev Pix.wf (m : Pix) : Prop :=
  m.Pairwise (fun x y => x.1 < y.1) ∧ ∀ cell ∈ m, cell.2 ≠ pixPowerOn cell.1

/-- Every listed byte exists (20_memory.md R41). -/
abbrev Pix.below (m : Pix) (size : Nat) : Prop := ∀ cell ∈ m, cell.1 < size

/-- `MemRead(addr, 1)` (00_scope.md section 7). -/
def State.memRead (s : State) (addr : Nat) : Byte := Pix.read s.pix addr

/-- `MemWrite(addr, 1, b)` (00_scope.md section 7). -/
def State.memWrite (s : State) (addr : Nat) (b : Byte) : State :=
  { s with pix := Pix.write s.pix addr b }

/-! ### Lanes (10_state.md R22, R27) -/

/-- The lane of channel `c`. -/
def Lanes.get (x : Lanes) : Chan → Lane
  | .r => x.r
  | .g => x.g
  | .b => x.b

/-- `x` with the lane of channel `c` replaced. -/
def Lanes.set (x : Lanes) (c : Chan) (l : Lane) : Lanes :=
  match c with
  | .r => { x with r := l }
  | .g => { x with g := l }
  | .b => { x with b := l }

/-- The lane of channel `c`. -/
def State.lane (s : State) (c : Chan) : Lane := s.lanes.get c

/-- `s` with the lane of channel `c` replaced. -/
def State.setLane (s : State) (c : Chan) (l : Lane) : State := { s with lanes := s.lanes.set c l }

/-- `x[RING][i][c]`. The micro-steps read nodes 0..508 only; a number above 508 names no node. -/
def Lane.node (l : Lane) (i : Nat) : Byte := (l.ring[i]?).getD 0

/-- `x[RING][i][c] <- v`; a number above 508 names no node and nothing is written. -/
def Lane.setNode (l : Lane) (i : Nat) (v : Byte) : Lane := { l with ring := l.ring.setIfInBounds i v }

/-! ### The record in STATUS -/

/-- Error entry, `raise E` (60_exceptions.md R146): the whole of taking an exception in this hardware. There is no saved
position and no handler. -/
def State.raise (s : State) (e : ErrCode) : State :=
  { s with phase := .idle, result := .fail, errcode := e }

/-- The way back (60_exceptions.md R148; 43_control_commands.md R131): the record is cleared. Nothing has to be restored. -/
def State.clearRecord (s : State) : State :=
  { s with phase := .idle, result := .none, errcode := .none }

/-- A command that succeeds inside its CMD write and ends with the given PHASE (R87: IDLE, R119: DONE). -/
def State.recordOk (s : State) (p : Phase) : State :=
  { s with phase := p, result := .ok, errcode := .none }

/-- Commands are accepted only while not busy; while busy the word is dropped and nothing changes (30_encoding.md R60). -/
def ifNotBusy (s : State) (accept : Out) : Out :=
  if s.busy then .next s else accept

/-! ### Host registers (10_state.md R10, 43_control_commands.md R132) -/

/-- The byte offset of a register from REG_BASE (R10). -/
def HostReg.offset : HostReg → Nat
  | .cmd => 0x00
  | .status => 0x04
  | .width => 0x08
  | .height => 0x0C
  | .radius => 0x10
  | .bufLen => 0x14
  | .dtMul => 0x18
  | .dtShift => 0x1C

/-- All eight registers. -/
def HostReg.all : List HostReg :=
  [.cmd, .status, .width, .height, .radius, .bufLen, .dtMul, .dtShift]

/-- The register a HOST access reaches: 32 bits wide at exactly one of the eight offsets (20_memory.md R51). -/
def State.regAt (s : State) (addr bits : Nat) : Option HostReg :=
  if bits = 32 then HostReg.all.find? (fun r => s.platform.regBase + r.offset == addr) else none

/-- What a HOST read of the register returns (R132). CMD stores nothing and reads 0 (R11). -/
def State.readReg (s : State) : HostReg → Word
  | .cmd => 0
  | .status => s.statusWord
  | .width => s.width
  | .height => s.height
  | .radius => s.radius
  | .bufLen => s.bufLen
  | .dtMul => s.dtMul
  | .dtShift => s.dtShift.setWidth 32

/-- A HOST write of a register other than CMD (R132): the argument registers store every value, the read-only registers
ignore it. A write of CMD stores nothing (R11); what it delivers is `Sys2Proof.Machine.deliver`. -/
def State.storeReg (s : State) (r : HostReg) (v : Word) : State :=
  match r with
  | .cmd => s
  | .status => s
  | .width => { s with width := v }
  | .height => { s with height := v }
  | .radius => { s with radius := v }
  | .bufLen => { s with bufLen := v }
  | .dtMul => s
  | .dtShift => s

/-- A HOST read returned `x`. -/
def State.reply (s : State) (x : Reply) : State := { s with replies := x :: s.replies }

/-- What a HOST read of `r` does beside returning a value: a STATUS read that returns PHASE = DONE hands the buffer back
(20_memory.md R49, 70_reset_and_hazards.md R173). It changes no register (R132). -/
def State.handBack (s : State) (r : HostReg) : State :=
  if r = .status ∧ s.phase = .done then { s with loan := 0 } else s

/-! ### The reset input (70_reset_and_hazards.md R170, R171) -/

/-- What a lane holds after a reset during a run: free values (10_state.md R31; log 2). -/
def freeLane (draw base : Nat) : Lane where
  sum := (Config.freeReg draw base).setWidth 24
  insum := (Config.freeReg draw (base + 1)).setWidth 16
  outsum := (Config.freeReg draw (base + 2)).setWidth 16
  ring := Vector.ofFn (fun i => (Config.freeReg draw (base + 3 + i.val)).setWidth 8)

/-- PIX after a reset while busy with a buffer of `len` bytes: each R, G, B byte of the buffer is a free value, each alpha
byte and each byte at or above `len` is as before (R171). -/
def freedPix (draw len : Nat) (m : Pix) : Pix :=
  (List.range len).foldl
    (fun acc addr => if addr % 4 = 3 then acc else Pix.write acc addr (Config.freePix draw addr)) m

/-- The reset input is asserted (R170, R171): STATUS, the argument registers, DT_MUL and DT_SHIFT become 0, every internal
register holds a free value, and PIX is not written, but for the buffer of a blur that is cut short. -/
def State.assertReset (s : State) : State where
  platform := s.platform
  resetIn := true
  phase := .idle
  result := .none
  errcode := .none
  width := 0
  height := 0
  radius := 0
  bufLen := 0
  dtMul := 0
  dtShift := 0
  line := Config.freeReg s.draws 0
  pos := Config.freeReg s.draws 1
  sub := if Config.freeReg s.draws 2 = 0 then .seeding else .sliding
  latW := Config.freeReg s.draws 3
  latH := Config.freeReg s.draws 4
  latR := (Config.freeReg s.draws 5).setWidth 8
  latMul := Config.freeReg s.draws 6
  latSh := (Config.freeReg s.draws 7).setWidth 8
  lanes := ⟨freeLane s.draws 10, freeLane s.draws 600, freeLane s.draws 1200⟩
  head := (Config.freeReg s.draws 8).setWidth 9
  tail := (Config.freeReg s.draws 9).setWidth 9
  pix :=
    if s.busy then freedPix s.draws (min (4 * s.latW.toNat * s.latH.toNat) s.platform.pixSize) s.pix
    else s.pix
  loan := 0
  events := s.events
  replies := s.replies
  draws := s.draws + 1

/-- The reset input is released (R170): the block is idle and accepts commands at once. -/
def State.releaseReset (s : State) : State := { s with resetIn := false }

end Sys2Proof.Machine
end

