-- ==== Sys2Proof/Machine/Blur.lean ====
section
/-! DEFINITION. Acceptance of BLUR (42_blur_command.md R110, R111, R119). What follows it is the ENGINE's,
Sys2Proof/Machine/Sweep.lean. -/

namespace Sys2Proof.Machine

/-- The parameters are latched (10_state.md R21). The radius has been validated, so its low 8 bits are its value. -/
def State.latch (s : State) : State :=
  { s with
    latW := s.width
    latH := s.height
    latR := s.radius.setWidth 8
    latMul := divtabMul s.argR.toNat
    latSh := divtabShift s.argR.toNat }

/-- `pc <- (p, 0, 0, SEEDING)` (R111, R114). -/
def State.startPass (s : State) (ph : Phase) : State :=
  { s with phase := ph, line := 0, pos := 0, sub := .seeding }

/-- The buffer is lent to the ENGINE (20_memory.md R47). A buffer lent before and not yet handed back stays lent (log 8). -/
def State.lend (s : State) (len : Nat) : State := { s with loan := max s.loan len }

/-- The end of an accepted BLUR (R111): the record is empty, the parameters are latched, ROWPASS starts. -/
def State.startBlur (s : State) : State :=
  (({ s with result := .none, errcode := .none }.latch).lend s.argLen).startPass .rowpass

/-- BLUR (R111), test by test. An accepted BLUR of a buffer longer than the pixel memory is refused
(70_reset_and_hazards.md R177, 93_implementation_defined.md U2). -/
def execBlur (s : State) : Out :=
  ifNotBusy s
    (if s.argR < 1 ∨ 254 < s.argR then .next (s.raise .invalidRadius)
    else if s.argW * s.argH * 4 ≠ s.argLen then .next (s.raise .bufferSizeMismatch)
    else if s.argW = 0 ∨ s.argH = 0 then .next (s.recordOk .done)
    else if s.platform.pixSize < s.argLen then .refused .bufferBeyondPix
    else .next s.startBlur)

end Sys2Proof.Machine
end

