-- ==== Sys2Proof/Machine/Control.lean ====
section
/-! DEFINITION. The control commands NOP and ACK (43_control_commands.md). -/

namespace Sys2Proof.Machine

/-- NOP (R130): nothing changes, busy or not. -/
def execNop (s : State) : Out := ifNotBusy s (.next s)

/-- ACK (R131): clears the record of the last command. -/
def execAck (s : State) : Out := ifNotBusy s (.next s.clearRecord)

end Sys2Proof.Machine
end

