-- ==== Sys2Proof/Machine/Table.lean ====
section
/-! DEFINITION. The table query DIVC (40_division_table.md R87). -/

namespace Sys2Proof.Machine

/-- DT_MUL and DT_SHIFT hold `DIVTAB(a)` (R87). -/
def State.loadTable (s : State) (a : Nat) : State :=
  { s with dtMul := divtabMul a, dtShift := divtabShift a }

/-- DIVC a (R87): an index outside the table raises InvalidRadius and leaves DT_MUL and DT_SHIFT alone. -/
def execDivc (a : Nat) (s : State) : Out :=
  ifNotBusy s
    (if 254 < a then .next (s.raise .invalidRadius)
    else .next ((s.loadTable a).recordOk .idle))

end Sys2Proof.Machine
end

