-- ==== Sys2Proof/Machine/Dispatch.lean ====
section
/-! DEFINITION. From a command to its meaning: one arm per constructor of Instr. -/

namespace Sys2Proof.Machine

/-- The command `i`, delivered to the block in the state `s` (30_encoding.md R60). -/
def exec (i : Instr) (s : State) : Host.Outcome State Fault Refusal :=
  match i with
  | .nop => Sys2Proof.Machine.execNop s
  | .blur => Sys2Proof.Machine.execBlur s
  | .divc a => Sys2Proof.Machine.execDivc a s
  | .ack => Sys2Proof.Machine.execAck s

end Sys2Proof.Machine
end

