-- ==== Sys2Proof/Machine/Sweep.lean ====
section
/-! DEFINITION. The ENGINE: SEED and SLIDE (41_sweep_kernel.md R92, R93), the sequencer (42_blur_command.md R114) and
completion (R115). -/

namespace Sys2Proof.Machine

/-- `sum over i = 1 .. n of f i`. -/
def sumUpTo (n : Nat) (f : Nat → Nat) : Nat := ((List.range n).map (fun i => f (i + 1))).sum

/-- What SEED writes into the lane of one channel (R92). `src i` is the sample at coordinate `i`, clamped to the scanline;
`old` gives the ring nodes above `2R`, which are not written. -/
def seedLane (r : Nat) (src : Nat → Byte) (old : Lane) : Lane where
  outsum := BitVec.ofNat 16 ((r + 1) * (src 0).toNat)
  sum := BitVec.ofNat 24
    ((r + 1) * (r + 2) / 2 * (src 0).toNat + sumUpTo r (fun i => (r + 1 - i) * (src i).toNat))
  insum := BitVec.ofNat 16 (sumUpTo r (fun i => (src i).toNat))
  ring := Vector.ofFn (fun j : Fin 509 =>
    if j.val ≤ r then src 0 else if j.val ≤ 2 * r then src (j.val - r) else old.node j.val)

/-- SEED for one channel: reads the line, writes the channel's lane. -/
def State.seedChan (s : State) (p : Pass) (c : Chan) : State :=
  s.setLane c (seedLane s.latR.toNat (fun i => s.memRead (s.sampleAddr p i c)) (s.lane c))

/-- SEED (R92): the three channels, the cursors, then POS and SUB. -/
def State.seed (s : State) (p : Pass) : State :=
  let t := ((s.seedChan p .r).seedChan p .g).seedChan p .b
  { t with
    head := 0
    tail := BitVec.ofNat 9 (s.latR.toNat + 1)
    pos := 0
    sub := .sliding }

/-- The value SLIDE emits for one channel (R93). -/
def State.output (s : State) (c : Chan) : Byte :=
  BitVec.ofNat 8 (clamp255 (mulShift (s.lane c).sum.toNat s.latMul.toNat s.latSh.toNat))

/-- What SLIDE does to the lane of one channel when the sample entering is `v` (R93), line by line. -/
def slideLane (l : Lane) (head tail : Nat) (v : Byte) : Lane :=
  let sum₁ := l.sum - l.outsum.setWidth 24
  let outsum₁ := l.outsum - (l.node head).setWidth 16
  let l₁ := l.setNode head v
  let insum₁ := l.insum + v.setWidth 16
  let sum₂ := sum₁ + insum₁.setWidth 24
  let t := l₁.node tail
  let outsum₂ := outsum₁ + t.setWidth 16
  let insum₂ := insum₁ - t.setWidth 16
  { sum := sum₂, insum := insum₂, outsum := outsum₂, ring := l₁.ring }

/-- SLIDE for one channel (R93): the write of the output precedes the read of the sample entering (R96). -/
def State.slideChan (s : State) (p : Pass) (c : Chan) : State :=
  let t := s.memWrite (s.outAddr p c) (s.output c)
  let v := t.memRead (t.sampleAddr p (t.pos.toNat + t.latR.toNat + 1) c)
  t.setLane c (slideLane (t.lane c) t.head.toNat t.tail.toNat v)

/-- The successor of a ring node (10_state.md R27), as a cursor. -/
def nextNode (r : Nat) (i : BitVec 9) : BitVec 9 := BitVec.ofNat 9 ((i.toNat + 1) % (2 * r + 1))

/-- `complete` (R115). -/
def State.complete (s : State) : State := { s with phase := .done, result := .ok }

/-- `advance` (R114). -/
def State.advance (s : State) (p : Pass) : State :=
  if s.pos.toNat + 1 < s.lineLength p then { s with pos := s.pos + 1 }
  else if s.line.toNat + 1 < s.lineCount p then { s with line := s.line + 1, sub := .seeding }
  else match p with
    | .row => s.startPass .colpass
    | .col => s.complete

/-- SLIDE (R93): the three channels, the cursors, then the sequencer. -/
def State.slide (s : State) (p : Pass) : State :=
  let t := ((s.slideChan p .r).slideChan p .g).slideChan p .b
  ({ t with
    head := nextNode s.latR.toNat s.head
    tail := nextNode s.latR.toNat s.tail }).advance p

/-- What SEED would touch that does not exist. `none` in every state a run reaches (60_exceptions.md R144). -/
def State.seedFault (s : State) (p : Pass) : Option Fault :=
  if s.lineLength p = 0 then some .emptyScanline
  else if 254 < s.latR.toNat then some .ringOutOfRange
  else if s.platform.pixSize ≤ s.sampleAddr p s.latR.toNat .b then some .pixOutOfRange
  else none

/-- What SLIDE would touch that does not exist. `none` in every state a run reaches (60_exceptions.md R144). -/
def State.slideFault (s : State) (p : Pass) : Option Fault :=
  if s.lineLength p = 0 then some .emptyScanline
  else if 508 < s.head.toNat ∨ 508 < s.tail.toNat then some .ringOutOfRange
  else if s.platform.pixSize ≤ s.outAddr p .b ∨
      s.platform.pixSize ≤ s.sampleAddr p (s.pos.toNat + s.latR.toNat + 1) .b then some .pixOutOfRange
  else none

/-- SEED as a step. -/
def seedStep (s : State) (p : Pass) : Out :=
  match s.seedFault p with
  | some f => .fault f
  | none => .next (s.seed p)

/-- SLIDE as a step. -/
def slideStep (s : State) (p : Pass) : Out :=
  match s.slideFault p with
  | some f => .fault f
  | none => .next (s.slide p)

/-- The ENGINE's turn (R114): it has a step exactly when the block is busy, and SUB says which. While the reset input is
asserted it takes none (70_reset_and_hazards.md R171). -/
def engineTurn (s : State) : Out :=
  if s.resetIn then .next s
  else match s.phase.pass? with
    | none => .next s
    | some p =>
      match s.sub with
      | .seeding => seedStep s p
      | .sliding => slideStep s p

end Sys2Proof.Machine
end

