-- ==== Sys2Proof/Machine/Bus.lean ====
section
/-! DEFINITION. What the three agents do to the block: the HOST's register and PIX accesses (43_control_commands.md R132,
20_memory.md R47, R51), a command word written to CMD (30_encoding.md R60), WAIT (R71), the ENGINE's turn and the reset
input (70_reset_and_hazards.md R170). -/

namespace Sys2Proof.Machine

/-- A word written to CMD (30_encoding.md R60): dropped before decoding while busy; otherwise decoded and executed, or
IllegalCommand. -/
def deliver (w : Word) (s : State) : Out :=
  if s.busy then .next s
  else match decode w with
    | .command i => exec i s
    | .illegal _ => .next (s.raise .illegalCommand)

/-- A HOST write of `v` to the register `r` (R132). -/
def hostWrite (r : HostReg) (v : Word) (s : State) : Out :=
  if r = .cmd then deliver v s else .next (s.storeReg r v)

/-- A HOST read of the register `r` (R132): the value is the reply, and reading DONE hands the buffer back. -/
def hostRead (r : HostReg) (s : State) : State :=
  (s.reply (.reg (s.readReg r))).handBack r

/-- A HOST access has no meaning while the reset input is asserted (93_implementation_defined.md U14). -/
def outOfReset (s : State) (access : Out) : Out :=
  if s.resetIn then .refused .accessDuringReset else access

/-- A HOST access to the register block reaches one of the eight registers or has no meaning
(93_implementation_defined.md U6). -/
def onRegister (s : State) (addr bits : Nat) (access : HostReg → Out) : Out :=
  match s.regAt addr bits with
  | some r => access r
  | none => .refused .registerAccess

/-- A HOST access to a PIX byte: the byte must exist, and must not be lent to the ENGINE
(93_implementation_defined.md U1). -/
def onPixByte (s : State) (addr : Nat) (access : Out) : Out :=
  if s.platform.pixSize ≤ addr then .fault .pixOutOfRange
  else if addr < s.loan then .refused .pixLent
  else access

/-- One event other than WAIT. -/
def act (e : Event) (s : State) : Out :=
  match e with
  | .write addr bits v => outOfReset s (onRegister s addr bits (fun r => hostWrite r v s))
  | .read addr bits => outOfReset s (onRegister s addr bits (fun r => .next (hostRead r s)))
  | .pixWrite addr b => outOfReset s (onPixByte s addr (.next (s.memWrite addr b)))
  | .pixRead addr => outOfReset s (onPixByte s addr (.next (s.reply (.pix (s.memRead addr)))))
  | .wait => outOfReset s (.next (hostRead .status s))
  | .engine => engineTurn s
  | .resetAssert => if s.resetIn then .next s else .next s.assertReset
  | .resetRelease => .next s.releaseReset

/-- The next move. With no event the HOST is silent and the ENGINE moves if it has a step (70_reset_and_hazards.md R179).
WAIT stays at the head of the events while the block is busy, and the ENGINE moves between two of its reads of STATUS
(30_encoding.md R71). Every other event is taken off the list, and then it happens. -/
def turn (s : State) : Out :=
  match s.events with
  | [] => engineTurn s
  | .wait :: rest =>
    if s.busy && !s.resetIn then engineTurn s else act .wait { s with events := rest }
  | e :: rest => act e { s with events := rest }

end Sys2Proof.Machine
end

