-- ==== Sys2Proof/Machine/Script.lean ====
section
/-! DEFINITION. Host scripts (30_encoding.md R71, R72): notation for what the HOST does, written as events. -/

namespace Sys2Proof.Machine

/-- `WR reg, v`. -/
def wr (p : Platform) (r : HostReg) (v : Word) : Event := .write (p.regBase + r.offset) 32 v

/-- `RD reg`. -/
def rd (p : Platform) (r : HostReg) : Event := .read (p.regBase + r.offset) 32

/-- `NOP`, `BLUR`, `DIVC a`, `ACK`: the command's word is written to CMD. -/
def command (p : Platform) (i : Instr) : Event := wr p .cmd (encode i)

/-- `APPLY w, h, r, len` (R72). -/
def applyScript (p : Platform) (w h r len : Word) : List Event :=
  [wr p .width w, wr p .height h, wr p .radius r, wr p .bufLen len,
    command p .blur, .wait]

/-- `DIVQ a` (R72). -/
def divqScript (p : Platform) (a : Nat) : List Event :=
  [command p (.divc a), rd p .dtMul, rd p .dtShift]

/-- `PFILL addr, b0 b1 ... bn` (R72). -/
def pfill (addr : Nat) : List Byte → List Event
  | [] => []
  | b :: bs => .pixWrite addr b :: pfill (addr + 1) bs

end Sys2Proof.Machine
end

