-- ==== Sys2Proof/Machine/Step.lean ====
section
/-! DEFINITION. One step of the machine, and where a command is placed for the next step to run it. -/

namespace Sys2Proof.Machine

/-- One step: the next move of HOST, ENGINE or RESET. -/
def step (s : State) : Host.Outcome State Fault Refusal := turn s

/-- `s` with the command of a row of the opcode table as the HOST's next action: a write of its word to CMD, the one way a
command reaches the block (30_encoding.md R60), with the reset input released. Bits that make no 32-bit word place nothing
(log 5). -/
def State.withFetchWord (s : State) (nbits w : Nat) : State :=
  match tableWord nbits w with
  | some v => { s with resetIn := false, events := wr s.platform .cmd v :: s.events }
  | none => s

end Sys2Proof.Machine
end

