-- ==== Sys2Proof/Machine/Run.lean ====
section
/-! DEFINITION. A run of a host script: when it is over, and its end state (70_reset_and_hazards.md R181). -/

namespace Sys2Proof.Machine

/-- The HOST's own statements (30_encoding.md R71). The ENGINE's turns and the reset input are other agents' (log 17). -/
def Event.isHost : Event → Bool
  | .write _ _ _ => true
  | .read _ _ => true
  | .pixWrite _ _ => true
  | .pixRead _ => true
  | .wait => true
  | .engine => false
  | .resetAssert => false
  | .resetRelease => false

/-- "A run of a host script is over when the HOST has issued its last statement and the block is not busy" (R181). -/
def State.runOver (s : State) : Bool := !s.busy && s.events.all (fun e => !e.isHost)

/-- The end state (R181): the eight host registers and PIX. The internal registers have no place in it. -/
structure EndState where
  cmd : Word
  status : Word
  width : Word
  height : Word
  radius : Word
  bufLen : Word
  dtMul : Word
  dtShift : Word
  /-- How many bytes PIX has. -/
  pixSize : Nat
  /-- Below this address nothing may be claimed of an R, G or B byte: the HOST has not waited for the blur (R173, R181). -/
  lent : Nat
  /-- The bytes of PIX of which something may be claimed, listed as in `State`. -/
  pix : Pix
  deriving DecidableEq, Repr

/-- The end state's value of a host register. -/
def EndState.reg (e : EndState) : HostReg → Word
  | .cmd => e.cmd
  | .status => e.status
  | .width => e.width
  | .height => e.height
  | .radius => e.radius
  | .bufLen => e.bufLen
  | .dtMul => e.dtMul
  | .dtShift => e.dtShift

/-- Something may be claimed of the byte at `addr` when `lent` bytes are not yet handed back: all but an R, G or B byte
below `lent` (R181). -/
def claimable (lent addr : Nat) : Bool := decide (lent ≤ addr) || decide (addr % 4 = 3)

/-- The end state's byte at `addr`, if it exists and something may be claimed of it. -/
def EndState.pixByte (e : EndState) (addr : Nat) : Option Byte :=
  if addr < e.pixSize ∧ claimable e.lent addr = true then some (Pix.read e.pix addr) else none

/-- What a state shows when its run is over (R181). -/
def State.endState (s : State) : EndState where
  cmd := s.readReg .cmd
  status := s.readReg .status
  width := s.readReg .width
  height := s.readReg .height
  radius := s.readReg .radius
  bufLen := s.readReg .bufLen
  dtMul := s.readReg .dtMul
  dtShift := s.readReg .dtShift
  pixSize := s.platform.pixSize
  lent := s.loan
  pix := s.pix.filter (fun cell => claimable s.loan cell.1)

/-- At most `n` steps, up to the end of the run; a fault or a refusal stops it too. -/
def run : Nat → State → Out
  | 0, s => .next s
  | n + 1, s =>
    if s.runOver then .next s
    else match step s with
      | .next t => run n t
      | .fault f => .fault f
      | .refused x => .refused x

end Sys2Proof.Machine
end

