-- ==== Sys2Proof/Safety.lean ====
section
/-! DEFINITION. What claims are stated in: the invariants of the machine (10_state.md R13, R20 to R29), the reference result
of a scanline (41_sweep_kernel.md R90), the ENGINE run alone, and what an update leaves unchanged. -/

namespace Sys2Proof.Machine

/-! ### The reference result of a scanline (41_sweep_kernel.md R90) -/

/-- `wt(k) = r + 1 - |k|`, for `-r <= k <= r`. -/
def weight (r : Nat) (k : Int) : Nat := r + 1 - k.natAbs

/-- `s(p) = src[clampc(p, N)]`, for any integer `p`. -/
def refSample (src : Nat → Byte) (n : Nat) (p : Int) : Nat := (src (clampc p n)).toNat

/-- `T(q) = sum over k = -r .. r of wt(k) * s(q + k)`, with `k = j - r`. -/
def refTotal (src : Nat → Byte) (n r q : Nat) : Nat :=
  ∑ j ∈ Finset.range (2 * r + 1), weight r ((j : Int) - r) * refSample src n ((q : Int) + ((j : Int) - r))

/-- `out[q] = clamp255(fpdiv(T(q), r))`, a byte. -/
def refOut (src : Nat → Byte) (n r q : Nat) : Byte := BitVec.ofNat 8 (clamp255 (fpdiv (refTotal src n r q) r))

/-- The samples of channel `c` of line `l` of pass `p`, as PIX holds them in `s`. -/
def State.lineSrc (s : State) (p : Pass) (l : Nat) (c : Chan) (j : Nat) : Byte :=
  s.memRead (pixAddr s.latW.toNat p l j c)

/-! ### Invariants -/

/-- The relations (a) to (c) of 10_state.md R13; (d) holds by the types of `result` and `errcode`. -/
structure State.StatusOk (s : State) : Prop where
  busy : s.busy = true → s.result = .none ∧ s.errcode = .none
  done : s.phase = .done → s.result = .ok ∧ s.errcode = .none
  fail : (s.result = .fail ↔ s.errcode ≠ .none) ∧ (s.result = .fail → s.phase = .idle)

/-- The accumulators of a lane are the totals of the ring as it stands, read from HEAD on (10_state.md R22, R29):
SUM the weighted sum, OUTSUM the plain sum of the trailing half, INSUM that of the leading half. -/
structure Lane.Consistent (l : Lane) (r head : Nat) : Prop where
  sum : l.sum.toNat =
    ∑ j ∈ Finset.range (2 * r + 1), weight r ((j : Int) - r) * (l.node ((head + j) % (2 * r + 1))).toNat
  outsum : l.outsum.toNat = ∑ j ∈ Finset.range (r + 1), (l.node ((head + j) % (2 * r + 1))).toNat
  insum : l.insum.toNat = ∑ j ∈ Finset.range r, (l.node ((head + (r + 1 + j)) % (2 * r + 1))).toNat

/-- The cursors and the position while SLIDE comes next (10_state.md R20, R28), and the accumulators (R29). -/
structure State.SlidingOk (s : State) (p : Pass) : Prop where
  pos : s.pos.toNat < s.lineLength p
  head : s.head.toNat < 2 * s.latR.toNat + 1
  tail : s.tail.toNat = (s.head.toNat + s.latR.toNat + 1) % (2 * s.latR.toNat + 1)
  lanes : ∀ c, (s.lane c).Consistent s.latR.toNat s.head.toNat

/-- The ranges of the internal registers while a pass runs (10_state.md R20, R21), and the buffer it runs on
(20_memory.md R47, 70_reset_and_hazards.md R177). -/
structure State.PassOk (s : State) (p : Pass) : Prop where
  w : 1 ≤ s.latW.toNat
  h : 1 ≤ s.latH.toNat
  size : 4 * s.latW.toNat * s.latH.toNat < 2 ^ 32
  exist : 4 * s.latW.toNat * s.latH.toNat ≤ s.platform.pixSize
  lent : 4 * s.latW.toNat * s.latH.toNat ≤ s.loan
  r : 1 ≤ s.latR.toNat ∧ s.latR.toNat ≤ 254
  mul : s.latMul = divtabMul s.latR.toNat
  sh : s.latSh = divtabShift s.latR.toNat
  line : s.line.toNat < s.lineCount p
  released : s.resetIn = false
  sliding : s.sub = .sliding → s.SlidingOk p

/-- What holds of the ENGINE between steps: while a pass runs, its registers are in range and consistent. -/
def State.EngineOk (s : State) : Prop := ∀ p, s.phase.pass? = some p → s.PassOk p

/-- PIX is in canonical form and lists only bytes that exist. -/
def State.MemOk (s : State) : Prop := s.pix.wf ∧ s.pix.below s.platform.pixSize

/-- The invariant of the whole machine. -/
structure State.Ok (s : State) : Prop where
  status : s.StatusOk
  engine : s.EngineOk
  mem : s.MemOk

/-- Rule R94 of 41_sweep_kernel.md: pass `p` runs, SLIDE comes next at position POS, and `src c` is channel `c` of the line as it stood
before the SEED of the line. -/
structure State.LineInv (s : State) (p : Pass) (src : Chan → Nat → Byte) : Prop where
  running : s.phase.pass? = some p
  sliding : s.sub = .sliding
  pix : ∀ c j, j < s.lineLength p → s.lineSrc p s.line.toNat c j =
    if j < s.pos.toNat then refOut (src c) (s.lineLength p) s.latR.toNat j else src c j
  ring : ∀ c j, j ≤ 2 * s.latR.toNat →
    ((s.lane c).node ((s.head.toNat + j) % (2 * s.latR.toNat + 1))).toNat =
      refSample (src c) (s.lineLength p) ((s.pos.toNat : Int) + j - s.latR.toNat)
  sum : ∀ c, (s.lane c).sum.toNat = refTotal (src c) (s.lineLength p) s.latR.toNat s.pos.toNat
  outsum : ∀ c, (s.lane c).outsum.toNat = ∑ j ∈ Finset.range (s.latR.toNat + 1),
    refSample (src c) (s.lineLength p) ((s.pos.toNat : Int) + j - s.latR.toNat)
  insum : ∀ c, (s.lane c).insum.toNat = ∑ j ∈ Finset.range s.latR.toNat,
    refSample (src c) (s.lineLength p) ((s.pos.toNat : Int) + (j + 1))
  head : s.head.toNat = s.pos.toNat % (2 * s.latR.toNat + 1)
  tail : s.tail.toNat = (s.pos.toNat + s.latR.toNat + 1) % (2 * s.latR.toNat + 1)

/-! ### The ENGINE run alone, and unchanged parts of the state -/

/-- `k` turns of the ENGINE, stopping at the first fault or refusal. -/
def engineRun : Nat → State → Out
  | 0, s => .next s
  | k + 1, s =>
    match engineTurn s with
    | .next t => engineRun k t
    | .fault f => .fault f
    | .refused x => .refused x

/-- An answer with its next state changed by `g`; a fault or a refusal stays as it is. -/
def mapOut (g : State → State) : Out → Out
  | .next t => .next (g t)
  | .fault f => .fault f
  | .refused x => .refused x

/-- Nothing outside the block's own registers differs: platform, reset input, ownership, and the model's own fields. -/
structure SameOutside (s t : State) : Prop where
  platform : t.platform = s.platform
  resetIn : t.resetIn = s.resetIn
  events : t.events = s.events
  replies : t.replies = s.replies
  draws : t.draws = s.draws

/-- The four argument registers are the same. -/
structure SameArgs (s t : State) : Prop where
  width : t.width = s.width
  height : t.height = s.height
  radius : t.radius = s.radius
  bufLen : t.bufLen = s.bufLen

/-- The table result registers are the same. -/
structure SameTable (s t : State) : Prop where
  dtMul : t.dtMul = s.dtMul
  dtShift : t.dtShift = s.dtShift

/-- STATUS is the same. -/
structure SameStatus (s t : State) : Prop where
  phase : t.phase = s.phase
  result : t.result = s.result
  errcode : t.errcode = s.errcode

/-- The latched parameters are the same. -/
structure SameLatched (s t : State) : Prop where
  latW : t.latW = s.latW
  latH : t.latH = s.latH
  latR : t.latR = s.latR
  latMul : t.latMul = s.latMul
  latSh : t.latSh = s.latSh

/-- LINE, POS and SUB are the same. -/
structure SamePosition (s t : State) : Prop where
  line : t.line = s.line
  pos : t.pos = s.pos
  sub : t.sub = s.sub

/-- The accumulators, the ring and the cursors are the same. -/
structure SameKernel (s t : State) : Prop where
  lanes : t.lanes = s.lanes
  head : t.head = s.head
  tail : t.tail = s.tail

/-- Every byte of PIX reads the same. -/
def SameMem (s t : State) : Prop := ∀ a, t.memRead a = s.memRead a

/-- A command that touches only STATUS and DT_MUL, DT_SHIFT leaves all of this alone. -/
structure SameButRecord (s t : State) : Prop where
  outside : SameOutside s t
  args : SameArgs s t
  latched : SameLatched s t
  position : SamePosition s t
  kernel : SameKernel s t
  loan : t.loan = s.loan
  mem : SameMem s t

end Sys2Proof.Machine
end

