-- ==== Sys2Proof/Certificates/Slice0/Obligations.lean ====
section
/-! DEFINITION. The statements for the provers, from the numbered rules of spec/. Each docstring names the rules it rests on. -/

open Sys2Proof Sys2Proof.Machine

/-! ### Commands and their words -/

/-- 30_encoding.md R61, R63 to R66, R68: decoding the word of a well-formed command gives the command back. -/
def Obligations.DecodeOfEncode : Prop :=
  ∀ i : Instr, WellFormed i = true → decode (encode i) = .command i

/-- 30_encoding.md R61 to R68: a word that decodes to a command is that command's word, and no other. -/
def Obligations.EncodeOfDecode : Prop :=
  ∀ (w : Word) (i : Instr), decode w = .command i → WellFormed i = true ∧ encode i = w

/-- 30_encoding.md section 2: a word selects a row of the opcode map exactly when (w AND mask) = match. -/
def Obligations.DecodeAgreesWithOpcodeMap : Prop :=
  ∀ w : Word,
    (decode w = .command .nop ↔ w &&& 0xFFFFFFFF#32 = 0x00000000#32) ∧
    (decode w = .command .blur ↔ w &&& 0xFFFFFFFF#32 = 0x00000001#32) ∧
    ((∃ a, decode w = .command (.divc a)) ↔ w &&& 0xFFFF00FF#32 = 0x00000002#32) ∧
    (decode w = .command .ack ↔ w &&& 0xFFFFFFFF#32 = 0x00000003#32)

/-- 30_encoding.md R67: which words are illegal, and what one does when written to CMD. -/
def Obligations.IllegalWordsAndTheirEffect : Prop :=
  ∀ w : Word,
    ((∃ why, decode w = .illegal why) ↔
      4 ≤ w.toNat % 256 ∨ w.toNat / 2 ^ 16 ≠ 0 ∨
        ((w.toNat % 256 = 0 ∨ w.toNat % 256 = 1 ∨ w.toNat % 256 = 3) ∧ w.toNat / 256 % 256 ≠ 0)) ∧
    ((∃ why, decode w = .illegal why) → ∀ s : State,
      (s.busy = false → deliver w s = .next (s.raise .illegalCommand)) ∧
      (s.busy = true → deliver w s = .next s))

/-- 30_encoding.md R67: "259 are legal". -/
def Obligations.LegalWordsNumber259 : Prop :=
  ∃ words : List Word, words.Nodup ∧ words.length = 259 ∧ ∀ w : Word, (∃ i, decode w = .command i) ↔ w ∈ words

/-- 30_encoding.md R65: the 256 words of DIVC, and what the one with a = 255 does. -/
def Obligations.DivcWords : Prop :=
  (∀ a, a ≤ 255 → encode (.divc a) = BitVec.ofNat 32 (0x00000002 + a * 0x100) ∧
    decode (BitVec.ofNat 32 (0x00000002 + a * 0x100)) = .command (.divc a)) ∧
  ∀ s : State, s.busy = false →
    deliver 0x0000FF02 s = .next (s.raise .invalidRadius) ∧
    ∀ a, a ≤ 254 → ∀ t, deliver (BitVec.ofNat 32 (0x00000002 + a * 0x100)) s = .next t → t.errcode = .none

/-- 95_test_vectors.md T4: some of the words, each written out from the encodings of 30_encoding.md. -/
def Obligations.DecodeOfWordsWrittenOut : Prop :=
  decode 0x00000000 = .command .nop ∧ decode 0x00000001 = .command .blur ∧
  decode 0x00007F02 = .command (.divc 127) ∧ decode 0x00000003 = .command .ack ∧
  decode 0x00000004 = .illegal .opcode ∧ decode 0x00000101 = .illegal .argField ∧
  decode 0x00010002 = .illegal .reservedField

/-! ### From a step to a command -/

/-- 30_encoding.md R60, 10_state.md R11: with a write of `v` to CMD as the next event and the reset input released, the step takes the event
off the list and delivers `v`; a word that decodes to a command runs it, an illegal word raises IllegalCommand, and while
busy the word is dropped. That HOST actions stand in a list of events is the model's choice (log 6). -/
def Obligations.StepRunsTheDecodedCommand : Prop :=
  ∀ (s : State) (v : Word) (rest : List Event),
    s.events = .write s.platform.regBase 32 v :: rest → s.resetIn = false →
      (s.busy = true → step s = .next { s with events := rest }) ∧
      (s.busy = false →
        (∀ i, decode v = .command i → step s = exec i { s with events := rest }) ∧
        (∀ why, decode v = .illegal why →
          step s = .next (({ s with events := rest } : State).raise .illegalCommand)))

/-- 70_reset_and_hazards.md R174, 30_encoding.md R60: every command is dropped while busy, legal or not. That `exec` itself
answers the same state while busy is the model's choice (log 15). -/
def Obligations.CommandsWhileBusyAreLost : Prop :=
  ∀ s : State, s.busy = true → (∀ w, deliver w s = .next s) ∧ (∀ i, exec i s = .next s)

/-! ### The commands -/

/-- 43_control_commands.md R130. -/
def Obligations.NopChangesNothing : Prop :=
  decode 0x00000000 = .command .nop ∧ ∀ s : State, exec .nop s = .next s

/-- 43_control_commands.md R131. The last clause is "a HOST that never issues ACK sees the same results". -/
def Obligations.AckClearsTheRecord : Prop :=
  decode 0x00000003 = .command .ack ∧ ∀ s : State,
    (s.busy = false →
      (∃ t, exec .ack s = .next t ∧ t.phase = .idle ∧ t.result = .none ∧ t.errcode = .none ∧
        t.statusWord = 0x00000000 ∧ SameTable s t ∧ SameButRecord s t) ∧
      exec .blur s.clearRecord = exec .blur s ∧ ∀ a, exec (.divc a) s.clearRecord = exec (.divc a) s) ∧
    (s.busy = true → exec .ack s = .next s)

/-- 40_division_table.md R87 with R81: an index of the table. -/
def Obligations.DivcReturnsTheEntry : Prop :=
  ∀ (s : State) (a : Nat), s.busy = false → a ≤ 254 →
    ∃ t shift, exec (.divc a) s = .next t ∧
      256 * ((a + 1) * (a + 1)) < 2 ^ shift ∧ (∀ k, k < shift → 2 ^ k ≤ 256 * ((a + 1) * (a + 1))) ∧
      t.dtMul.toNat = (2 ^ shift + (a + 1) * (a + 1) - 1) / ((a + 1) * (a + 1)) ∧
      257 ≤ t.dtMul.toNat ∧ t.dtMul.toNat ≤ 512 ∧
      (t.readReg .dtShift).toNat = shift ∧ 9 ≤ shift ∧ shift ≤ 24 ∧
      t.phase = .idle ∧ t.result = .ok ∧ t.errcode = .none ∧ t.statusWord = 0x00000004 ∧ SameButRecord s t

/-- 40_division_table.md R87, 60_exceptions.md R141: the one index outside the table; larger numbers, which no word carries, are the
model's (log 16). -/
def Obligations.DivcOutsideTheTable : Prop :=
  ∀ (s : State) (a : Nat), s.busy = false → 254 < a →
    ∃ t, exec (.divc a) s = .next t ∧ t.phase = .idle ∧ t.result = .fail ∧ t.errcode = .invalidRadius ∧
      t.statusWord = 0x00000018 ∧ SameTable s t ∧ SameButRecord s t

/-- 42_blur_command.md R111, the last case: both checks pass, the image is not empty and the memory lent exists. The loan is
log 8's. -/
def Obligations.BlurStartsTheRowPass : Prop :=
  ∀ s : State, s.busy = false → 1 ≤ s.radius.toInt → s.radius.toInt ≤ 254 →
    s.width.toNat * s.height.toNat * 4 = s.bufLen.toNat → s.width.toNat ≠ 0 → s.height.toNat ≠ 0 →
    s.bufLen.toNat ≤ s.platform.pixSize →
    ∃ t, exec .blur s = .next t ∧
      t.phase = .rowpass ∧ t.result = .none ∧ t.errcode = .none ∧ t.statusWord = 0x00000001 ∧
      t.latW = s.width ∧ t.latH = s.height ∧ (t.latR.toNat : Int) = s.radius.toInt ∧
      t.latMul = divtabMul t.latR.toNat ∧ t.latSh = divtabShift t.latR.toNat ∧
      t.line = 0 ∧ t.pos = 0 ∧ t.sub = .seeding ∧ s.bufLen.toNat ≤ t.loan ∧
      SameOutside s t ∧ SameArgs s t ∧ SameTable s t ∧ SameKernel s t ∧ SameMem s t

/-- 42_blur_command.md R119: the zero-size image. The next state runs no micro-step, so no scanline of length 0 is swept. -/
def Obligations.BlurOfAnEmptyImage : Prop :=
  ∀ s : State, s.busy = false → s.width.toNat = 0 ∨ s.height.toNat = 0 →
    (1 ≤ s.radius.toInt → s.radius.toInt ≤ 254 →
      (s.bufLen.toNat = 0 →
        ∃ t, exec .blur s = .next t ∧ t.phase = .done ∧ t.result = .ok ∧ t.errcode = .none ∧
          t.statusWord = 0x00000007 ∧ engineTurn t = .next t ∧ SameTable s t ∧ SameButRecord s t) ∧
      (s.bufLen.toNat ≠ 0 → exec .blur s = .next (s.raise .bufferSizeMismatch))) ∧
    (s.radius.toInt < 1 ∨ 254 < s.radius.toInt → exec .blur s = .next (s.raise .invalidRadius))

/-- 42_blur_command.md R111, 60_exceptions.md R141: the radius check of BLUR and of DIVC, and nothing else, gives InvalidRadius. -/
def Obligations.InvalidRadiusExactlyOutsideTheRange : Prop :=
  ∀ s : State, s.busy = false →
    (∀ t, exec .blur s = .next t →
      (t.errcode = .invalidRadius ↔ s.radius.toInt < 1 ∨ 254 < s.radius.toInt) ∧
      (t.errcode = .invalidRadius → t = s.raise .invalidRadius)) ∧
    (s.radius.toInt < 1 ∨ 254 < s.radius.toInt → exec .blur s = .next (s.raise .invalidRadius)) ∧
    (∀ a, WellFormed (.divc a) = true → ∀ t, exec (.divc a) s = .next t →
      (t.errcode = .invalidRadius ↔ a = 255))

/-- 60_exceptions.md R142: the length check, on the exact product. -/
def Obligations.BufferSizeMismatchExactly : Prop :=
  ∀ s : State, s.busy = false → 1 ≤ s.radius.toInt → s.radius.toInt ≤ 254 →
    (s.width.toNat * s.height.toNat * 4 ≠ s.bufLen.toNat →
      exec .blur s = .next (s.raise .bufferSizeMismatch)) ∧
    (∀ t, exec .blur s = .next t →
      (t.errcode = .bufferSizeMismatch ↔ s.width.toNat * s.height.toNat * 4 ≠ s.bufLen.toNat))

/-- 70_reset_and_hazards.md R177, 93_implementation_defined.md U2; refusing at acceptance is the model's (log 9). -/
def Obligations.BlurBeyondTheMemoryIsRefused : Prop :=
  ∀ s : State, s.busy = false → 1 ≤ s.radius.toInt → s.radius.toInt ≤ 254 →
    s.width.toNat * s.height.toNat * 4 = s.bufLen.toNat → s.width.toNat ≠ 0 → s.height.toNat ≠ 0 →
    s.platform.pixSize < s.bufLen.toNat → exec .blur s = .refused .bufferBeyondPix

/-- 60_exceptions.md R146: error entry. -/
def Obligations.ErrorEntry : Prop :=
  ∀ s : State,
    (s.raise .invalidRadius).statusWord = 0x00000018 ∧
    (s.raise .bufferSizeMismatch).statusWord = 0x00000028 ∧
    (s.raise .illegalCommand).statusWord = 0x00000038 ∧
    ∀ e, (s.raise e).phase = .idle ∧ (s.raise e).result = .fail ∧ (s.raise e).errcode = e ∧
      SameTable s (s.raise e) ∧ SameButRecord s (s.raise e)

/-- 60_exceptions.md R145: IllegalCommand before InvalidRadius before BufferSizeMismatch; nothing while busy. -/
def Obligations.ErrorPriority : Prop :=
  ∀ (s : State) (w : Word),
    (s.busy = true → deliver w s = .next s) ∧
    (s.busy = false →
      ((∃ why, decode w = .illegal why) → deliver w s = .next (s.raise .illegalCommand)) ∧
      (decode w = .command .blur → (s.radius.toInt < 1 ∨ 254 < s.radius.toInt) →
        deliver w s = .next (s.raise .invalidRadius)) ∧
      (decode w = .command .blur → 1 ≤ s.radius.toInt → s.radius.toInt ≤ 254 →
        s.width.toNat * s.height.toNat * 4 ≠ s.bufLen.toNat →
        deliver w s = .next (s.raise .bufferSizeMismatch)))

/-- 60_exceptions.md R148, R149: an error record is replaced by what the next BLUR, DIVC or error gives, and NOP leaves it. -/
def Obligations.ErrorRecordIsReplaced : Prop :=
  ∀ (s : State) (e : ErrCode) (w : Word), s.busy = false →
    decode w ≠ .command .nop → deliver w (s.raise e) = deliver w s.clearRecord

/-! ### Registers and memory, as the HOST sees them -/

/-- 10_state.md R12: the fields of the word a read of STATUS returns, and the value of every code. -/
def Obligations.StatusFields : Prop :=
  (Phase.idle.code = 0 ∧ Phase.rowpass.code = 1 ∧ Phase.colpass.code = 2 ∧ Phase.done.code = 3 ∧
    Result.none.code = 0 ∧ Result.ok.code = 1 ∧ Result.fail.code = 2 ∧
    ErrCode.none.code = 0 ∧ ErrCode.invalidRadius.code = 1 ∧ ErrCode.bufferSizeMismatch.code = 2 ∧
    ErrCode.illegalCommand.code = 3) ∧
  ∀ s : State, s.readReg .status = s.statusWord ∧
    s.statusWord.extractLsb' 0 2 = s.phase.code ∧ s.statusWord.extractLsb' 2 2 = s.result.code ∧
    s.statusWord.extractLsb' 4 4 = s.errcode.code ∧ s.statusWord.extractLsb' 8 24 = 0 ∧
    s.result.code ≠ 3 ∧ s.errcode.code.toNat ≤ 3

/-- 43_control_commands.md R132: register writes. -/
def Obligations.RegisterWrites : Prop :=
  ∀ (s : State) (r : HostReg) (v : Word),
    (r = .width ∨ r = .height ∨ r = .radius ∨ r = .bufLen →
      ∃ t, hostWrite r v s = .next t ∧ t.readReg r = v ∧ (∀ q, q ≠ r → t.readReg q = s.readReg q) ∧
        SameOutside s t ∧ SameStatus s t ∧ SameLatched s t ∧ SamePosition s t ∧ SameKernel s t ∧
        t.loan = s.loan ∧ SameMem s t) ∧
    (r = .status ∨ r = .dtMul ∨ r = .dtShift → hostWrite r v s = .next s) ∧
    (r = .cmd → hostWrite r v s = deliver v s)

/-- 43_control_commands.md R132: register reads have no effect on a register; 10_state.md R11: CMD reads 0. Reading DONE hands the buffer
back (70_reset_and_hazards.md R173; log 8). -/
def Obligations.RegisterReads : Prop :=
  ∀ (s : State) (r : HostReg),
    (hostRead r s).replies = .reg (s.readReg r) :: s.replies ∧
    s.readReg .cmd = 0 ∧ s.readReg .status = s.statusWord ∧ s.readReg .width = s.width ∧
    s.readReg .height = s.height ∧ s.readReg .radius = s.radius ∧ s.readReg .bufLen = s.bufLen ∧
    s.readReg .dtMul = s.dtMul ∧ s.readReg .dtShift = s.dtShift.setWidth 32 ∧
    (∀ q, (hostRead r s).readReg q = s.readReg q) ∧
    (hostRead r s).platform = s.platform ∧ (hostRead r s).resetIn = s.resetIn ∧
    (hostRead r s).events = s.events ∧ (hostRead r s).draws = s.draws ∧
    SameLatched s (hostRead r s) ∧ SamePosition s (hostRead r s) ∧ SameKernel s (hostRead r s) ∧
    SameMem s (hostRead r s) ∧
    (hostRead r s).loan = if r = .status ∧ s.phase = .done then 0 else s.loan

/-- 20_memory.md R51, 93_implementation_defined.md U6: which accesses reach a register, and that any other is refused (how an
access is written down is log 13's). -/
def Obligations.AccessesOfTheRegisterBlock : Prop :=
  ∀ (s : State) (addr bits : Nat) (rest : List Event), s.resetIn = false →
    (∀ r, addr = s.platform.regBase + r.offset → bits = 32 →
      (s.events = .read addr bits :: rest → step s = .next (hostRead r { s with events := rest })) ∧
      (∀ v, s.events = .write addr bits v :: rest → step s = hostWrite r v { s with events := rest })) ∧
    ((bits ≠ 32 ∨ ∀ r, addr ≠ s.platform.regBase + HostReg.offset r) →
      (s.events = .read addr bits :: rest → step s = .refused .registerAccess) ∧
      (∀ v, s.events = .write addr bits v :: rest → step s = .refused .registerAccess))

/-- 20_memory.md R43, R47, 70_reset_and_hazards.md R173: the HOST's accesses to PIX. How long a byte stays lent is
log 8's, the fault log 9's. -/
def Obligations.HostPixAccesses : Prop :=
  ∀ (s : State) (addr : Nat) (b : Byte) (rest : List Event), s.resetIn = false →
    (s.events = .pixWrite addr b :: rest →
      (addr < s.platform.pixSize → s.loan ≤ addr →
        ∃ t, step s = .next t ∧ t.memRead addr = b ∧ (∀ a, a ≠ addr → t.memRead a = s.memRead a) ∧
          t = { s with events := rest, pix := t.pix }) ∧
      (addr < s.platform.pixSize → addr < s.loan → step s = .refused .pixLent) ∧
      (s.platform.pixSize ≤ addr → step s = .fault .pixOutOfRange)) ∧
    (s.events = .pixRead addr :: rest →
      (addr < s.platform.pixSize → s.loan ≤ addr →
        step s = .next { s with events := rest, replies := .pix (s.memRead addr) :: s.replies }) ∧
      (addr < s.platform.pixSize → addr < s.loan → step s = .refused .pixLent) ∧
      (s.platform.pixSize ≤ addr → step s = .fault .pixOutOfRange))

/-! ### Reset -/

/-- 10_state.md R31, the values the spec gives; every register of the HOST reads 0. -/
def Obligations.ResetValues : Prop :=
  State.reset.phase = .idle ∧ State.reset.result = .none ∧ State.reset.errcode = .none ∧
    (∀ r, State.reset.readReg r = 0) ∧ State.reset.busy = false

/-- 70_reset_and_hazards.md R170, R171: asserting the reset input. The freed bytes and the internal registers are under no clause: they are
unspecified. -/
def Obligations.AssertingReset : Prop :=
  ∀ (s : State) (rest : List Event), s.events = .resetAssert :: rest → s.resetIn = false →
    ∃ t, step s = .next t ∧ t.resetIn = true ∧ t.phase = .idle ∧ (∀ r, t.readReg r = 0) ∧
      t.platform = s.platform ∧ t.replies = s.replies ∧ t.events = rest ∧
      (s.busy = false → SameMem s t) ∧
      (∀ a, a % 4 = 3 ∨ 4 * s.latW.toNat * s.latH.toNat ≤ a → t.memRead a = s.memRead a)

/-- 70_reset_and_hazards.md R170, R171, 93_implementation_defined.md U14: while the reset input is asserted the ENGINE takes no step and HOST accesses
are refused; the release changes nothing else. The level of the input is a field of the model (log 7). -/
def Obligations.WhileResetIsAsserted : Prop :=
  ∀ s : State, s.resetIn = true → engineTurn s = .next s ∧
    (∀ e rest, s.events = e :: rest →
      ((∃ addr bits v, e = .write addr bits v) ∨ (∃ addr bits, e = .read addr bits) ∨
        (∃ addr b, e = .pixWrite addr b) ∨ (∃ addr, e = .pixRead addr) ∨ e = .wait →
          step s = .refused .accessDuringReset) ∧
      (e = .resetRelease → step s = .next { s with events := rest, resetIn := false }) ∧
      (e = .resetAssert → step s = .next { s with events := rest }))

/-! ### The ENGINE -/

/-- 41_sweep_kernel.md R92: SEED, in a state where the ENGINE's registers are in range. The totals are exact (no wrap). -/
def Obligations.SeedBuildsTheWindow : Prop :=
  ∀ (s : State) (p : Pass), s.phase.pass? = some p → s.PassOk p → s.sub = .seeding →
    ∃ t, engineTurn s = .next t ∧
      (∀ c : Chan, ∃ v : Nat → Byte,
        (∀ i, v i = s.memRead (pixAddr s.latW.toNat p s.line.toNat (min i (s.lineLength p - 1)) c)) ∧
        (∀ j, j ≤ s.latR.toNat → (t.lane c).node j = v 0) ∧
        (∀ i, 1 ≤ i → i ≤ s.latR.toNat → (t.lane c).node (s.latR.toNat + i) = v i) ∧
        (∀ j, 2 * s.latR.toNat < j → (t.lane c).node j = (s.lane c).node j) ∧
        (t.lane c).outsum.toNat = (s.latR.toNat + 1) * (v 0).toNat ∧
        (t.lane c).sum.toNat = (s.latR.toNat + 1) * (s.latR.toNat + 2) / 2 * (v 0).toNat +
          ∑ i ∈ Finset.Icc 1 s.latR.toNat, (s.latR.toNat + 1 - i) * (v i).toNat ∧
        (t.lane c).insum.toNat = ∑ i ∈ Finset.Icc 1 s.latR.toNat, (v i).toNat) ∧
      t.head = 0 ∧ t.tail.toNat = s.latR.toNat + 1 ∧ t.pos = 0 ∧ t.sub = .sliding ∧ t.line = s.line ∧
      SameOutside s t ∧ SameArgs s t ∧ SameTable s t ∧ SameStatus s t ∧ SameLatched s t ∧
      t.loan = s.loan ∧ SameMem s t

/-- 41_sweep_kernel.md R93, R96: SLIDE on the lanes, the ring and PIX. The totals are exact (no wrap); the read of the
entering sample follows the write of the output. Where the sequencer goes is the statement about R114. That the loan
stays as it is, after the last SLIDE of a blur too, is the model's reading (log 8). -/
def Obligations.SlideMovesTheWindow : Prop :=
  ∀ (s : State) (p : Pass), s.phase.pass? = some p → s.PassOk p → s.sub = .sliding →
    ∃ t, engineTurn s = .next t ∧
      (∀ c : Chan, ∃ (o v : Byte) (entering : Nat),
        o.toNat = min ((s.lane c).sum.toNat * s.latMul.toNat / 2 ^ s.latSh.toNat) 255 ∧
        t.memRead (pixAddr s.latW.toNat p s.line.toNat s.pos.toNat c) = o ∧
        entering = pixAddr s.latW.toNat p s.line.toNat
          (min (s.pos.toNat + s.latR.toNat + 1) (s.lineLength p - 1)) c ∧
        v = (if entering = pixAddr s.latW.toNat p s.line.toNat s.pos.toNat c then o else s.memRead entering) ∧
        (t.lane c).node s.head.toNat = v ∧
        (∀ j, j ≠ s.head.toNat → (t.lane c).node j = (s.lane c).node j) ∧
        ((t.lane c).outsum.toNat : Int) = (s.lane c).outsum.toNat - ((s.lane c).node s.head.toNat).toNat +
          ((s.lane c).node s.tail.toNat).toNat ∧
        ((t.lane c).insum.toNat : Int) = (s.lane c).insum.toNat + v.toNat -
          ((s.lane c).node s.tail.toNat).toNat ∧
        ((t.lane c).sum.toNat : Int) = (s.lane c).sum.toNat - (s.lane c).outsum.toNat +
          ((s.lane c).insum.toNat + v.toNat)) ∧
      t.head.toNat = (s.head.toNat + 1) % (2 * s.latR.toNat + 1) ∧
      t.tail.toNat = (s.tail.toNat + 1) % (2 * s.latR.toNat + 1) ∧
      (∀ a, (∀ c, a ≠ pixAddr s.latW.toNat p s.line.toNat s.pos.toNat c) → t.memRead a = s.memRead a) ∧
      t.errcode = s.errcode ∧
      SameOutside s t ∧ SameArgs s t ∧ SameTable s t ∧ SameLatched s t ∧ t.loan = s.loan

/-- 42_blur_command.md R114, R115: the ENGINE has a step exactly when busy, which one, and where each leaves the sequencer. -/
def Obligations.SequencerAdvances : Prop :=
  ∀ s : State, s.resetIn = false →
    (s.busy = false → engineTurn s = .next s) ∧
    (∀ p, s.phase.pass? = some p → s.PassOk p → ∃ t, engineTurn s = .next t ∧
      (s.sub = .seeding → t = s.seed p ∧ t.phase = s.phase ∧ t.line = s.line ∧ t.pos = 0 ∧ t.sub = .sliding) ∧
      (s.sub = .sliding → t = s.slide p ∧
        (s.pos.toNat + 1 < s.lineLength p →
          t.phase = s.phase ∧ t.result = s.result ∧ t.line = s.line ∧ t.pos.toNat = s.pos.toNat + 1 ∧
            t.sub = .sliding) ∧
        (¬ s.pos.toNat + 1 < s.lineLength p → s.line.toNat + 1 < s.lineCount p →
          t.phase = s.phase ∧ t.result = s.result ∧ t.line.toNat = s.line.toNat + 1 ∧ t.sub = .seeding) ∧
        (¬ s.pos.toNat + 1 < s.lineLength p → ¬ s.line.toNat + 1 < s.lineCount p →
          (p = .row → t.phase = .colpass ∧ t.result = s.result ∧ t.line = 0 ∧ t.pos = 0 ∧ t.sub = .seeding) ∧
          (p = .col → t.phase = .done ∧ t.result = .ok ∧ t.errcode = s.errcode ∧ t.line = s.line ∧
            t.pos = s.pos ∧ t.sub = s.sub))))

/-- 60_exceptions.md R144: no micro-step of a running pass can fail or raise an error. -/
def Obligations.EngineNeverFails : Prop :=
  ∀ s : State, s.EngineOk → ∃ t, engineTurn s = .next t ∧ t.errcode = s.errcode ∧ (s.result ≠ .fail → t.result ≠ .fail)

/-- 20_memory.md R45, R46: every address the ENGINE forms is inside the buffer and is not an alpha byte's. -/
def Obligations.EngineAddressesAreInsideTheBuffer : Prop :=
  ∀ (s : State) (p : Pass) (c : Chan), s.PassOk p →
    (∀ coord, s.sampleAddr p coord c < 4 * s.latW.toNat * s.latH.toNat ∧ s.sampleAddr p coord c % 4 ≠ 3) ∧
    (s.sub = .sliding → s.outAddr p c < 4 * s.latW.toNat * s.latH.toNat ∧ s.outAddr p c % 4 ≠ 3)

/-- 20_memory.md R42, R45: different (line, position, channel) of a pass have different addresses, so the scanlines of a
pass are disjoint. -/
def Obligations.ScanlinesAreDisjoint : Prop :=
  ∀ (w : Nat) (p : Pass) (l q l' q' : Nat) (c c' : Chan),
    (p = .row → q < w ∧ q' < w) → (p = .col → l < w ∧ l' < w) →
    pixAddr w p l q c = pixAddr w p l' q' c' → l = l' ∧ q = q' ∧ c = c'

/-- 10_state.md R23, R24, R25: the bounds of the accumulators between micro-steps and inside SLIDE. -/
def Obligations.AccumulatorBounds : Prop :=
  ∀ (s : State) (p : Pass) (c : Chan), s.phase.pass? = some p → s.PassOk p → s.sub = .sliding →
    (s.lane c).sum.toNat ≤ 255 * ((s.latR.toNat + 1) * (s.latR.toNat + 1)) ∧
    (s.lane c).outsum.toNat ≤ (s.lane c).sum.toNat ∧
    (s.lane c).insum.toNat ≤ 255 * s.latR.toNat ∧
    (s.lane c).outsum.toNat ≤ 255 * (s.latR.toNat + 1) ∧
    ((s.lane c).node s.head.toNat).toNat ≤ (s.lane c).outsum.toNat ∧
    ((s.lane c).node s.tail.toNat).toNat ≤ (s.lane c).insum.toNat

/-- 10_state.md R26, 41_sweep_kernel.md R97: the product fits 32 bits unsigned, the shifted value fits 8 bits, and the
clamp of the output never changes it. -/
def Obligations.ProductAndOutputFit : Prop :=
  ∀ (S r : Nat), r ≤ 254 → S ≤ 255 * ((r + 1) * (r + 1)) →
    S * tableMul r < 2 ^ 32 ∧ fpdiv S r < 2 ^ 8 ∧ clamp255 (fpdiv S r) = fpdiv S r

/-- 41_sweep_kernel.md R94: SEED establishes the invariant of a line and every SLIDE but the last keeps it. -/
def Obligations.WindowInvariantOfALine : Prop :=
  (∀ (s : State) (p : Pass), s.phase.pass? = some p → s.PassOk p → s.sub = .seeding →
    ∃ t, engineTurn s = .next t ∧ t.line = s.line ∧ t.pos = 0 ∧ t.LineInv p (s.lineSrc p s.line.toNat)) ∧
  (∀ (s : State) (p : Pass) (src : Chan → Nat → Byte), s.PassOk p → s.LineInv p src →
    s.pos.toNat + 1 < s.lineLength p →
    ∃ t, engineTurn s = .next t ∧ t.line = s.line ∧ t.pos.toNat = s.pos.toNat + 1 ∧ t.LineInv p src)

/-- 41_sweep_kernel.md R95 with R90: SEED and N SLIDEs leave the reference result in the line and nothing else changed in PIX. -/
def Obligations.ScanlineHoldsTheReferenceResult : Prop :=
  ∀ (s : State) (p : Pass), s.phase.pass? = some p → s.PassOk p → s.sub = .seeding →
    ∃ t, engineRun (1 + s.lineLength p) s = .next t ∧
      (∀ c q, q < s.lineLength p → t.memRead (pixAddr s.latW.toNat p s.line.toNat q c) =
        refOut (s.lineSrc p s.line.toNat c) (s.lineLength p) s.latR.toNat q) ∧
      (∀ a, (∀ c q, q < s.lineLength p → a ≠ pixAddr s.latW.toNat p s.line.toNat q c) →
        t.memRead a = s.memRead a)

/-- 42_blur_command.md R112, R117: the row pass from its start to the start of the column pass. -/
def Obligations.RowPassSweepsEveryRow : Prop :=
  ∀ s : State, s.phase = .rowpass → s.PassOk .row → s.sub = .seeding → s.line = 0 →
    ∃ t, engineRun (s.latH.toNat * (1 + s.latW.toNat)) s = .next t ∧
      t.phase = .colpass ∧ t.line = 0 ∧ t.sub = .seeding ∧ t.PassOk .col ∧ SameLatched s t ∧
      (∀ x y c, x < s.latW.toNat → y < s.latH.toNat →
        t.memRead ((y * s.latW.toNat + x) * 4 + Chan.idx c) =
          refOut (fun j => s.memRead ((y * s.latW.toNat + j) * 4 + Chan.idx c)) s.latW.toNat s.latR.toNat x) ∧
      (∀ a, a % 4 = 3 ∨ 4 * s.latW.toNat * s.latH.toNat ≤ a → t.memRead a = s.memRead a)

/-- 42_blur_command.md R113, R115, R117: the column pass from its start to completion. -/
def Obligations.ColPassSweepsEveryColumn : Prop :=
  ∀ s : State, s.phase = .colpass → s.PassOk .col → s.sub = .seeding → s.line = 0 → s.errcode = .none →
    ∃ t, engineRun (s.latW.toNat * (1 + s.latH.toNat)) s = .next t ∧
      t.phase = .done ∧ t.result = .ok ∧ t.statusWord = 0x00000007 ∧
      (∀ x y c, x < s.latW.toNat → y < s.latH.toNat →
        t.memRead ((y * s.latW.toNat + x) * 4 + Chan.idx c) =
          refOut (fun j => s.memRead ((j * s.latW.toNat + x) * 4 + Chan.idx c)) s.latH.toNat s.latR.toNat y) ∧
      (∀ a, a % 4 = 3 ∨ 4 * s.latW.toNat * s.latH.toNat ≤ a → t.memRead a = s.memRead a)

/-- 42_blur_command.md R116, R117: the effect of an accepted BLUR as a whole. `B1` is the image after the rows. -/
def Obligations.AcceptedBlurLeavesTheBlurredImage : Prop :=
  ∀ (s : State) (w h r : Nat), s.busy = false → s.resetIn = false →
    w = s.width.toNat → h = s.height.toNat → (r : Int) = s.radius.toInt → 1 ≤ w → 1 ≤ h → 1 ≤ r → r ≤ 254 →
    w * h * 4 = s.bufLen.toNat → s.bufLen.toNat ≤ s.platform.pixSize →
    ∃ t₀ t, exec .blur s = .next t₀ ∧ engineRun (h * (1 + w) + w * (1 + h)) t₀ = .next t ∧
      t.statusWord = 0x00000007 ∧
      ∃ B1 : Nat → Nat → Chan → Byte,
        (∀ x y c, x < w → y < h →
          B1 x y c = refOut (fun j => s.memRead ((y * w + j) * 4 + Chan.idx c)) w r x) ∧
        (∀ x y c, x < w → y < h →
          t.memRead ((y * w + x) * 4 + Chan.idx c) = refOut (fun j => B1 x j c) h r y) ∧
        (∀ a, a % 4 = 3 ∨ 4 * w * h ≤ a → t.memRead a = s.memRead a)

/-- 70_reset_and_hazards.md R175, 10_state.md R21: a HOST write of an argument register does not reach the running blur. -/
def Obligations.RunningBlurIgnoresRegisterWrites : Prop :=
  ∀ (s : State) (r : HostReg) (v : Word),
    engineTurn (s.storeReg r v) = mapOut (fun t => t.storeReg r v) (engineTurn s)

/-- 41_sweep_kernel.md R98: a lane of the result depends on that lane of the source only. Two states that agree on the
sequencer, the latched parameters, the cursors, one lane and that lane's bytes agree on that lane after a micro-step. -/
def Obligations.LanesAreIndependent : Prop :=
  ∀ (s s' t t' : State) (c : Chan), s.EngineOk → s'.EngineOk → s.phase = s'.phase →
    SamePosition s s' → SameLatched s s' → s.head = s'.head → s.tail = s'.tail →
    s.lane c = s'.lane c → (∀ a, a % 4 = Chan.idx c → s.memRead a = s'.memRead a) →
    engineTurn s = .next t → engineTurn s' = .next t' →
    t.lane c = t'.lane c ∧ (∀ a, a % 4 = Chan.idx c → t.memRead a = t'.memRead a)

/-! ### The DivisionTable and the sweep as arithmetic -/

/-- 40_division_table.md R82: the bounds of the entries. -/
def Obligations.TableEntryBounds : Prop :=
  ∀ r, r ≤ 254 →
    256 * ((r + 1) * (r + 1)) < 2 ^ tableShift r ∧ 2 ^ tableShift r ≤ 512 * ((r + 1) * (r + 1)) ∧
    257 ≤ tableMul r ∧ tableMul r ≤ 512 ∧ 9 ≤ tableShift r ∧ tableShift r ≤ 24 ∧
    2 ^ tableShift r ≤ tableMul r * ((r + 1) * (r + 1)) ∧
    tableMul r * ((r + 1) * (r + 1)) - 2 ^ tableShift r ≤ (r + 1) * (r + 1) - 1 ∧
    (tableMul r = 512 ↔ ∃ k, (r + 1) * (r + 1) = 2 ^ k) ∧ (1 ≤ r → 11 ≤ tableShift r)

/-- 40_division_table.md R84: exact on multiples of the divisor. -/
def Obligations.DivideIsExactOnMultiples : Prop :=
  ∀ r v, r ≤ 254 → v ≤ 255 → fpdiv (v * ((r + 1) * (r + 1))) r = v

/-- 40_division_table.md R85: within the floor and the floor plus one, never above 255, and monotone. -/
def Obligations.DivideIsFloorOrOneMore : Prop :=
  ∀ r S, r ≤ 254 → S ≤ 255 * ((r + 1) * (r + 1)) →
    S / ((r + 1) * (r + 1)) ≤ fpdiv S r ∧ fpdiv S r ≤ S / ((r + 1) * (r + 1)) + 1 ∧ fpdiv S r ≤ 255 ∧
    ∀ S', S ≤ S' → fpdiv S r ≤ fpdiv S' r

/-- 41_sweep_kernel.md R91: the weights of the window sum to the divisor, those of the trailing half to
(r+1)(r+2)/2 and those of the leading half to r(r+1)/2; so the total of a window is at most 255 times the divisor. -/
def Obligations.WindowWeightsSumToTheDivisor : Prop :=
  ∀ r : Nat,
    (∀ (src : Nat → Byte) (n q : Nat), refTotal src n r q ≤ 255 * ((r + 1) * (r + 1))) ∧
    ∑ j ∈ Finset.range (2 * r + 1), weight r ((j : Int) - r) = (r + 1) * (r + 1) ∧
    ∑ j ∈ Finset.range (r + 1), weight r ((j : Int) - r) = (r + 1) * (r + 2) / 2 ∧
    ∑ j ∈ Finset.range r, weight r ((j : Int) + 1) = r * (r + 1) / 2

/-- 41_sweep_kernel.md R99 (b), (c): a flat line is unchanged, and an output lies between the least and the greatest
sample of its window. -/
def Obligations.OutputStaysWithinItsWindow : Prop :=
  ∀ (src : Nat → Byte) (n r q lo hi : Nat), 1 ≤ r → r ≤ 254 → q < n →
    (∀ k : Int, -(r : Int) ≤ k → k ≤ r → lo ≤ refSample src n (q + k) ∧ refSample src n (q + k) ≤ hi) →
    lo ≤ (refOut src n r q).toNat ∧ (refOut src n r q).toNat ≤ hi

/-- 41_sweep_kernel.md R99 (d): the sweep is monotone. -/
def Obligations.SweepIsMonotone : Prop :=
  ∀ (src src' : Nat → Byte) (n r q : Nat), 1 ≤ r → r ≤ 254 → q < n →
    (∀ j, j < n → (src j).toNat ≤ (src' j).toNat) →
    (refOut src n r q).toNat ≤ (refOut src' n r q).toNat

/-- 41_sweep_kernel.md R99 (e): reversing the line reverses the result. -/
def Obligations.SweepCommutesWithReversal : Prop :=
  ∀ (src : Nat → Byte) (n r q : Nat), 1 ≤ r → r ≤ 254 → q < n →
    refOut (fun j => src (n - 1 - j)) n r q = refOut src n r (n - 1 - q)

/-! ### Rules of the whole machine -/

/-- The state after reset meets the invariants. Its internal registers, its empty memory and its platform are the model's
choices (logs 1, 3, 4). -/
def Obligations.ResetMeetsTheInvariants : Prop := State.reset.Ok ∧ State.reset.platform.wf

/-- 10_state.md R13: every step keeps the relations between the STATUS fields. -/
def Obligations.StepKeepsStatusRelations : Prop :=
  ∀ s t : State, s.StatusOk → step s = .next t → t.StatusOk

/-- 10_state.md R20, R21, R28, R29: every step keeps the ENGINE's registers in range and its totals equal to those of the ring;
the buffer stays inside the memory and lent (logs 8, 9). -/
def Obligations.StepKeepsEngineRanges : Prop :=
  ∀ s t : State, s.EngineOk → step s = .next t → t.EngineOk

/-- Every step keeps PIX in canonical form and lists only bytes that exist (20_memory.md R41; the form is the model's, log 3). -/
def Obligations.StepKeepsMemoryForm : Prop :=
  ∀ s t : State, s.MemOk → step s = .next t → t.MemOk ∧ t.platform = s.platform

/-- 42_blur_command.md R118 (a), 20_memory.md R53: no step but a HOST write changes an alpha byte. -/
def Obligations.OnlyTheHostChangesAlpha : Prop :=
  ∀ s t : State, step s = .next t → (∀ addr b rest, s.events ≠ .pixWrite addr b :: rest) →
    ∀ a, a % 4 = 3 → t.memRead a = s.memRead a

/-- 20_memory.md R47, R53: a step of a block that is not busy changes no PIX byte, unless it is a HOST write; and a
micro-step changes none at or above the end of the buffer. -/
def Obligations.PixFootprint : Prop :=
  (∀ s t : State, s.busy = false → step s = .next t → (∀ addr b rest, s.events ≠ .pixWrite addr b :: rest) →
    SameMem s t) ∧
  (∀ s t : State, s.EngineOk → engineTurn s = .next t → ∀ a, 4 * s.latW.toNat * s.latH.toNat ≤ a →
    t.memRead a = s.memRead a)

/-- 10_state.md R18, R19: only a successful DIVC (or reset) changes DT_MUL and DT_SHIFT. -/
def Obligations.OnlyDivcChangesTheTableResult : Prop :=
  ∀ s t : State, step s = .next t → ¬ SameTable s t →
    (∃ rest, s.events = .resetAssert :: rest) ∨
    (∃ rest a, s.events = .write s.platform.regBase 32 (encode (.divc a)) :: rest ∧ a ≤ 254 ∧ s.busy = false ∧
      t.dtMul = divtabMul a ∧ t.dtShift = divtabShift a)

/-- 10_state.md R21: only BLUR acceptance (or reset) changes the latched parameters. -/
def Obligations.OnlyBlurChangesTheLatchedParameters : Prop :=
  ∀ s t : State, step s = .next t → ¬ SameLatched s t →
    (∃ rest, s.events = .resetAssert :: rest) ∨
    (∃ rest, s.events = .write s.platform.regBase 32 (encode .blur) :: rest ∧ s.busy = false ∧ t.phase = .rowpass)

/-- What happens when the HOST does nothing but wait.
30_encoding.md R71, 43_control_commands.md R133: WAIT lets the ENGINE move while the block is busy, and otherwise reads
STATUS and does nothing else but hand the buffer back where it reads DONE (log 8).
42_blur_command.md R114, 70_reset_and_hazards.md R179: with no event, and on a turn given to the ENGINE, the step is the
ENGINE's turn; that it moves then and between two reads of WAIT is the model's (log 6).
70_reset_and_hazards.md R181: when a run is over; then nothing more happens unless the reset input moves; the end state
shows the eight registers and the bytes of PIX, but for R, G and B bytes still lent, and nothing else (logs 8, 17). -/
def Obligations.WaitReadsStatusWhenNotBusy : Prop :=
  ∀ s : State,
    (s.resetIn = false → ∀ rest, s.events = .wait :: rest →
      (s.busy = true → step s = engineTurn s) ∧
      (s.busy = false → step s = .next (hostRead .status { s with events := rest }))) ∧
    (s.events = [] → step s = engineTurn s) ∧
    (∀ rest, s.events = .engine :: rest → step s = engineTurn { s with events := rest }) ∧
    (s.runOver = true ↔
      s.busy = false ∧ ∀ e ∈ s.events, e = .engine ∨ e = .resetAssert ∨ e = .resetRelease) ∧
    (s.runOver = true → (∀ n, run n s = .next s) ∧
      ((∀ e ∈ s.events, e = .engine) →
        ∃ t, step s = .next t ∧ t.runOver = true ∧ t.endState = s.endState)) ∧
    (s.runOver = false → ∀ n t, step s = .next t → run (n + 1) s = run n t) ∧
    (∀ r, s.endState.reg r = s.readReg r) ∧
    (∀ a, s.endState.pixByte a =
      if a < s.platform.pixSize ∧ (s.loan ≤ a ∨ a % 4 = 3) then some (s.memRead a) else none) ∧
    (∀ t : State, (∀ r, t.readReg r = s.readReg r) → t.pix = s.pix → t.loan = s.loan → t.platform = s.platform →
      t.endState = s.endState)
end

