-- ==== Sys2Proof/Laws/State.lean ====
section
/-! SUPPORT. One lemma per field per update of State: what each named update writes, and that it leaves every other field
alone. No later proof unfolds a record update. -/

namespace Sys2Proof.Machine

/-! ### memWrite -/

@[simp] theorem State.memWrite_platform (s : State) (a : Nat) (b : Byte) :
    (s.memWrite a b).platform = s.platform := rfl
@[simp] theorem State.memWrite_resetIn (s : State) (a : Nat) (b : Byte) : (s.memWrite a b).resetIn = s.resetIn := rfl
@[simp] theorem State.memWrite_phase (s : State) (a : Nat) (b : Byte) : (s.memWrite a b).phase = s.phase := rfl
@[simp] theorem State.memWrite_result (s : State) (a : Nat) (b : Byte) : (s.memWrite a b).result = s.result := rfl
@[simp] theorem State.memWrite_errcode (s : State) (a : Nat) (b : Byte) : (s.memWrite a b).errcode = s.errcode := rfl
@[simp] theorem State.memWrite_width (s : State) (a : Nat) (b : Byte) : (s.memWrite a b).width = s.width := rfl
@[simp] theorem State.memWrite_height (s : State) (a : Nat) (b : Byte) : (s.memWrite a b).height = s.height := rfl
@[simp] theorem State.memWrite_radius (s : State) (a : Nat) (b : Byte) : (s.memWrite a b).radius = s.radius := rfl
@[simp] theorem State.memWrite_bufLen (s : State) (a : Nat) (b : Byte) : (s.memWrite a b).bufLen = s.bufLen := rfl
@[simp] theorem State.memWrite_dtMul (s : State) (a : Nat) (b : Byte) : (s.memWrite a b).dtMul = s.dtMul := rfl
@[simp] theorem State.memWrite_dtShift (s : State) (a : Nat) (b : Byte) : (s.memWrite a b).dtShift = s.dtShift := rfl
@[simp] theorem State.memWrite_line (s : State) (a : Nat) (b : Byte) : (s.memWrite a b).line = s.line := rfl
@[simp] theorem State.memWrite_pos (s : State) (a : Nat) (b : Byte) : (s.memWrite a b).pos = s.pos := rfl
@[simp] theorem State.memWrite_sub (s : State) (a : Nat) (b : Byte) : (s.memWrite a b).sub = s.sub := rfl
@[simp] theorem State.memWrite_latW (s : State) (a : Nat) (b : Byte) : (s.memWrite a b).latW = s.latW := rfl
@[simp] theorem State.memWrite_latH (s : State) (a : Nat) (b : Byte) : (s.memWrite a b).latH = s.latH := rfl
@[simp] theorem State.memWrite_latR (s : State) (a : Nat) (b : Byte) : (s.memWrite a b).latR = s.latR := rfl
@[simp] theorem State.memWrite_latMul (s : State) (a : Nat) (b : Byte) : (s.memWrite a b).latMul = s.latMul := rfl
@[simp] theorem State.memWrite_latSh (s : State) (a : Nat) (b : Byte) : (s.memWrite a b).latSh = s.latSh := rfl
@[simp] theorem State.memWrite_lanes (s : State) (a : Nat) (b : Byte) : (s.memWrite a b).lanes = s.lanes := rfl
@[simp] theorem State.memWrite_head (s : State) (a : Nat) (b : Byte) : (s.memWrite a b).head = s.head := rfl
@[simp] theorem State.memWrite_tail (s : State) (a : Nat) (b : Byte) : (s.memWrite a b).tail = s.tail := rfl
@[simp] theorem State.memWrite_pix (s : State) (a : Nat) (b : Byte) :
    (s.memWrite a b).pix = Pix.write s.pix a b := rfl
@[simp] theorem State.memWrite_loan (s : State) (a : Nat) (b : Byte) : (s.memWrite a b).loan = s.loan := rfl
@[simp] theorem State.memWrite_events (s : State) (a : Nat) (b : Byte) : (s.memWrite a b).events = s.events := rfl
@[simp] theorem State.memWrite_replies (s : State) (a : Nat) (b : Byte) : (s.memWrite a b).replies = s.replies := rfl
@[simp] theorem State.memWrite_draws (s : State) (a : Nat) (b : Byte) : (s.memWrite a b).draws = s.draws := rfl

/-! ### setLane -/

@[simp] theorem State.setLane_platform (s : State) (c : Chan) (l : Lane) :
    (s.setLane c l).platform = s.platform := rfl
@[simp] theorem State.setLane_resetIn (s : State) (c : Chan) (l : Lane) : (s.setLane c l).resetIn = s.resetIn := rfl
@[simp] theorem State.setLane_phase (s : State) (c : Chan) (l : Lane) : (s.setLane c l).phase = s.phase := rfl
@[simp] theorem State.setLane_result (s : State) (c : Chan) (l : Lane) : (s.setLane c l).result = s.result := rfl
@[simp] theorem State.setLane_errcode (s : State) (c : Chan) (l : Lane) : (s.setLane c l).errcode = s.errcode := rfl
@[simp] theorem State.setLane_width (s : State) (c : Chan) (l : Lane) : (s.setLane c l).width = s.width := rfl
@[simp] theorem State.setLane_height (s : State) (c : Chan) (l : Lane) : (s.setLane c l).height = s.height := rfl
@[simp] theorem State.setLane_radius (s : State) (c : Chan) (l : Lane) : (s.setLane c l).radius = s.radius := rfl
@[simp] theorem State.setLane_bufLen (s : State) (c : Chan) (l : Lane) : (s.setLane c l).bufLen = s.bufLen := rfl
@[simp] theorem State.setLane_dtMul (s : State) (c : Chan) (l : Lane) : (s.setLane c l).dtMul = s.dtMul := rfl
@[simp] theorem State.setLane_dtShift (s : State) (c : Chan) (l : Lane) : (s.setLane c l).dtShift = s.dtShift := rfl
@[simp] theorem State.setLane_line (s : State) (c : Chan) (l : Lane) : (s.setLane c l).line = s.line := rfl
@[simp] theorem State.setLane_pos (s : State) (c : Chan) (l : Lane) : (s.setLane c l).pos = s.pos := rfl
@[simp] theorem State.setLane_sub (s : State) (c : Chan) (l : Lane) : (s.setLane c l).sub = s.sub := rfl
@[simp] theorem State.setLane_latW (s : State) (c : Chan) (l : Lane) : (s.setLane c l).latW = s.latW := rfl
@[simp] theorem State.setLane_latH (s : State) (c : Chan) (l : Lane) : (s.setLane c l).latH = s.latH := rfl
@[simp] theorem State.setLane_latR (s : State) (c : Chan) (l : Lane) : (s.setLane c l).latR = s.latR := rfl
@[simp] theorem State.setLane_latMul (s : State) (c : Chan) (l : Lane) : (s.setLane c l).latMul = s.latMul := rfl
@[simp] theorem State.setLane_latSh (s : State) (c : Chan) (l : Lane) : (s.setLane c l).latSh = s.latSh := rfl
@[simp] theorem State.setLane_lanes (s : State) (c : Chan) (l : Lane) : (s.setLane c l).lanes = s.lanes.set c l := rfl
@[simp] theorem State.setLane_head (s : State) (c : Chan) (l : Lane) : (s.setLane c l).head = s.head := rfl
@[simp] theorem State.setLane_tail (s : State) (c : Chan) (l : Lane) : (s.setLane c l).tail = s.tail := rfl
@[simp] theorem State.setLane_pix (s : State) (c : Chan) (l : Lane) : (s.setLane c l).pix = s.pix := rfl
@[simp] theorem State.setLane_loan (s : State) (c : Chan) (l : Lane) : (s.setLane c l).loan = s.loan := rfl
@[simp] theorem State.setLane_events (s : State) (c : Chan) (l : Lane) : (s.setLane c l).events = s.events := rfl
@[simp] theorem State.setLane_replies (s : State) (c : Chan) (l : Lane) : (s.setLane c l).replies = s.replies := rfl
@[simp] theorem State.setLane_draws (s : State) (c : Chan) (l : Lane) : (s.setLane c l).draws = s.draws := rfl

/-! ### raise -/

@[simp] theorem State.raise_platform (s : State) (e : ErrCode) : (s.raise e).platform = s.platform := rfl
@[simp] theorem State.raise_resetIn (s : State) (e : ErrCode) : (s.raise e).resetIn = s.resetIn := rfl
@[simp] theorem State.raise_phase (s : State) (e : ErrCode) : (s.raise e).phase = .idle := rfl
@[simp] theorem State.raise_result (s : State) (e : ErrCode) : (s.raise e).result = .fail := rfl
@[simp] theorem State.raise_errcode (s : State) (e : ErrCode) : (s.raise e).errcode = e := rfl
@[simp] theorem State.raise_width (s : State) (e : ErrCode) : (s.raise e).width = s.width := rfl
@[simp] theorem State.raise_height (s : State) (e : ErrCode) : (s.raise e).height = s.height := rfl
@[simp] theorem State.raise_radius (s : State) (e : ErrCode) : (s.raise e).radius = s.radius := rfl
@[simp] theorem State.raise_bufLen (s : State) (e : ErrCode) : (s.raise e).bufLen = s.bufLen := rfl
@[simp] theorem State.raise_dtMul (s : State) (e : ErrCode) : (s.raise e).dtMul = s.dtMul := rfl
@[simp] theorem State.raise_dtShift (s : State) (e : ErrCode) : (s.raise e).dtShift = s.dtShift := rfl
@[simp] theorem State.raise_line (s : State) (e : ErrCode) : (s.raise e).line = s.line := rfl
@[simp] theorem State.raise_pos (s : State) (e : ErrCode) : (s.raise e).pos = s.pos := rfl
@[simp] theorem State.raise_sub (s : State) (e : ErrCode) : (s.raise e).sub = s.sub := rfl
@[simp] theorem State.raise_latW (s : State) (e : ErrCode) : (s.raise e).latW = s.latW := rfl
@[simp] theorem State.raise_latH (s : State) (e : ErrCode) : (s.raise e).latH = s.latH := rfl
@[simp] theorem State.raise_latR (s : State) (e : ErrCode) : (s.raise e).latR = s.latR := rfl
@[simp] theorem State.raise_latMul (s : State) (e : ErrCode) : (s.raise e).latMul = s.latMul := rfl
@[simp] theorem State.raise_latSh (s : State) (e : ErrCode) : (s.raise e).latSh = s.latSh := rfl
@[simp] theorem State.raise_lanes (s : State) (e : ErrCode) : (s.raise e).lanes = s.lanes := rfl
@[simp] theorem State.raise_head (s : State) (e : ErrCode) : (s.raise e).head = s.head := rfl
@[simp] theorem State.raise_tail (s : State) (e : ErrCode) : (s.raise e).tail = s.tail := rfl
@[simp] theorem State.raise_pix (s : State) (e : ErrCode) : (s.raise e).pix = s.pix := rfl
@[simp] theorem State.raise_loan (s : State) (e : ErrCode) : (s.raise e).loan = s.loan := rfl
@[simp] theorem State.raise_events (s : State) (e : ErrCode) : (s.raise e).events = s.events := rfl
@[simp] theorem State.raise_replies (s : State) (e : ErrCode) : (s.raise e).replies = s.replies := rfl
@[simp] theorem State.raise_draws (s : State) (e : ErrCode) : (s.raise e).draws = s.draws := rfl

/-! ### clearRecord -/

@[simp] theorem State.clearRecord_platform (s : State) : s.clearRecord.platform = s.platform := rfl
@[simp] theorem State.clearRecord_resetIn (s : State) : s.clearRecord.resetIn = s.resetIn := rfl
@[simp] theorem State.clearRecord_phase (s : State) : s.clearRecord.phase = .idle := rfl
@[simp] theorem State.clearRecord_result (s : State) : s.clearRecord.result = .none := rfl
@[simp] theorem State.clearRecord_errcode (s : State) : s.clearRecord.errcode = .none := rfl
@[simp] theorem State.clearRecord_width (s : State) : s.clearRecord.width = s.width := rfl
@[simp] theorem State.clearRecord_height (s : State) : s.clearRecord.height = s.height := rfl
@[simp] theorem State.clearRecord_radius (s : State) : s.clearRecord.radius = s.radius := rfl
@[simp] theorem State.clearRecord_bufLen (s : State) : s.clearRecord.bufLen = s.bufLen := rfl
@[simp] theorem State.clearRecord_dtMul (s : State) : s.clearRecord.dtMul = s.dtMul := rfl
@[simp] theorem State.clearRecord_dtShift (s : State) : s.clearRecord.dtShift = s.dtShift := rfl
@[simp] theorem State.clearRecord_line (s : State) : s.clearRecord.line = s.line := rfl
@[simp] theorem State.clearRecord_pos (s : State) : s.clearRecord.pos = s.pos := rfl
@[simp] theorem State.clearRecord_sub (s : State) : s.clearRecord.sub = s.sub := rfl
@[simp] theorem State.clearRecord_latW (s : State) : s.clearRecord.latW = s.latW := rfl
@[simp] theorem State.clearRecord_latH (s : State) : s.clearRecord.latH = s.latH := rfl
@[simp] theorem State.clearRecord_latR (s : State) : s.clearRecord.latR = s.latR := rfl
@[simp] theorem State.clearRecord_latMul (s : State) : s.clearRecord.latMul = s.latMul := rfl
@[simp] theorem State.clearRecord_latSh (s : State) : s.clearRecord.latSh = s.latSh := rfl
@[simp] theorem State.clearRecord_lanes (s : State) : s.clearRecord.lanes = s.lanes := rfl
@[simp] theorem State.clearRecord_head (s : State) : s.clearRecord.head = s.head := rfl
@[simp] theorem State.clearRecord_tail (s : State) : s.clearRecord.tail = s.tail := rfl
@[simp] theorem State.clearRecord_pix (s : State) : s.clearRecord.pix = s.pix := rfl
@[simp] theorem State.clearRecord_loan (s : State) : s.clearRecord.loan = s.loan := rfl
@[simp] theorem State.clearRecord_events (s : State) : s.clearRecord.events = s.events := rfl
@[simp] theorem State.clearRecord_replies (s : State) : s.clearRecord.replies = s.replies := rfl
@[simp] theorem State.clearRecord_draws (s : State) : s.clearRecord.draws = s.draws := rfl

/-! ### recordOk -/

@[simp] theorem State.recordOk_platform (s : State) (p : Phase) : (s.recordOk p).platform = s.platform := rfl
@[simp] theorem State.recordOk_resetIn (s : State) (p : Phase) : (s.recordOk p).resetIn = s.resetIn := rfl
@[simp] theorem State.recordOk_phase (s : State) (p : Phase) : (s.recordOk p).phase = p := rfl
@[simp] theorem State.recordOk_result (s : State) (p : Phase) : (s.recordOk p).result = .ok := rfl
@[simp] theorem State.recordOk_errcode (s : State) (p : Phase) : (s.recordOk p).errcode = .none := rfl
@[simp] theorem State.recordOk_width (s : State) (p : Phase) : (s.recordOk p).width = s.width := rfl
@[simp] theorem State.recordOk_height (s : State) (p : Phase) : (s.recordOk p).height = s.height := rfl
@[simp] theorem State.recordOk_radius (s : State) (p : Phase) : (s.recordOk p).radius = s.radius := rfl
@[simp] theorem State.recordOk_bufLen (s : State) (p : Phase) : (s.recordOk p).bufLen = s.bufLen := rfl
@[simp] theorem State.recordOk_dtMul (s : State) (p : Phase) : (s.recordOk p).dtMul = s.dtMul := rfl
@[simp] theorem State.recordOk_dtShift (s : State) (p : Phase) : (s.recordOk p).dtShift = s.dtShift := rfl
@[simp] theorem State.recordOk_line (s : State) (p : Phase) : (s.recordOk p).line = s.line := rfl
@[simp] theorem State.recordOk_pos (s : State) (p : Phase) : (s.recordOk p).pos = s.pos := rfl
@[simp] theorem State.recordOk_sub (s : State) (p : Phase) : (s.recordOk p).sub = s.sub := rfl
@[simp] theorem State.recordOk_latW (s : State) (p : Phase) : (s.recordOk p).latW = s.latW := rfl
@[simp] theorem State.recordOk_latH (s : State) (p : Phase) : (s.recordOk p).latH = s.latH := rfl
@[simp] theorem State.recordOk_latR (s : State) (p : Phase) : (s.recordOk p).latR = s.latR := rfl
@[simp] theorem State.recordOk_latMul (s : State) (p : Phase) : (s.recordOk p).latMul = s.latMul := rfl
@[simp] theorem State.recordOk_latSh (s : State) (p : Phase) : (s.recordOk p).latSh = s.latSh := rfl
@[simp] theorem State.recordOk_lanes (s : State) (p : Phase) : (s.recordOk p).lanes = s.lanes := rfl
@[simp] theorem State.recordOk_head (s : State) (p : Phase) : (s.recordOk p).head = s.head := rfl
@[simp] theorem State.recordOk_tail (s : State) (p : Phase) : (s.recordOk p).tail = s.tail := rfl
@[simp] theorem State.recordOk_pix (s : State) (p : Phase) : (s.recordOk p).pix = s.pix := rfl
@[simp] theorem State.recordOk_loan (s : State) (p : Phase) : (s.recordOk p).loan = s.loan := rfl
@[simp] theorem State.recordOk_events (s : State) (p : Phase) : (s.recordOk p).events = s.events := rfl
@[simp] theorem State.recordOk_replies (s : State) (p : Phase) : (s.recordOk p).replies = s.replies := rfl
@[simp] theorem State.recordOk_draws (s : State) (p : Phase) : (s.recordOk p).draws = s.draws := rfl

/-! ### reply -/

@[simp] theorem State.reply_platform (s : State) (x : Reply) : (s.reply x).platform = s.platform := rfl
@[simp] theorem State.reply_resetIn (s : State) (x : Reply) : (s.reply x).resetIn = s.resetIn := rfl
@[simp] theorem State.reply_phase (s : State) (x : Reply) : (s.reply x).phase = s.phase := rfl
@[simp] theorem State.reply_result (s : State) (x : Reply) : (s.reply x).result = s.result := rfl
@[simp] theorem State.reply_errcode (s : State) (x : Reply) : (s.reply x).errcode = s.errcode := rfl
@[simp] theorem State.reply_width (s : State) (x : Reply) : (s.reply x).width = s.width := rfl
@[simp] theorem State.reply_height (s : State) (x : Reply) : (s.reply x).height = s.height := rfl
@[simp] theorem State.reply_radius (s : State) (x : Reply) : (s.reply x).radius = s.radius := rfl
@[simp] theorem State.reply_bufLen (s : State) (x : Reply) : (s.reply x).bufLen = s.bufLen := rfl
@[simp] theorem State.reply_dtMul (s : State) (x : Reply) : (s.reply x).dtMul = s.dtMul := rfl
@[simp] theorem State.reply_dtShift (s : State) (x : Reply) : (s.reply x).dtShift = s.dtShift := rfl
@[simp] theorem State.reply_line (s : State) (x : Reply) : (s.reply x).line = s.line := rfl
@[simp] theorem State.reply_pos (s : State) (x : Reply) : (s.reply x).pos = s.pos := rfl
@[simp] theorem State.reply_sub (s : State) (x : Reply) : (s.reply x).sub = s.sub := rfl
@[simp] theorem State.reply_latW (s : State) (x : Reply) : (s.reply x).latW = s.latW := rfl
@[simp] theorem State.reply_latH (s : State) (x : Reply) : (s.reply x).latH = s.latH := rfl
@[simp] theorem State.reply_latR (s : State) (x : Reply) : (s.reply x).latR = s.latR := rfl
@[simp] theorem State.reply_latMul (s : State) (x : Reply) : (s.reply x).latMul = s.latMul := rfl
@[simp] theorem State.reply_latSh (s : State) (x : Reply) : (s.reply x).latSh = s.latSh := rfl
@[simp] theorem State.reply_lanes (s : State) (x : Reply) : (s.reply x).lanes = s.lanes := rfl
@[simp] theorem State.reply_head (s : State) (x : Reply) : (s.reply x).head = s.head := rfl
@[simp] theorem State.reply_tail (s : State) (x : Reply) : (s.reply x).tail = s.tail := rfl
@[simp] theorem State.reply_pix (s : State) (x : Reply) : (s.reply x).pix = s.pix := rfl
@[simp] theorem State.reply_loan (s : State) (x : Reply) : (s.reply x).loan = s.loan := rfl
@[simp] theorem State.reply_events (s : State) (x : Reply) : (s.reply x).events = s.events := rfl
@[simp] theorem State.reply_replies (s : State) (x : Reply) : (s.reply x).replies = x :: s.replies := rfl
@[simp] theorem State.reply_draws (s : State) (x : Reply) : (s.reply x).draws = s.draws := rfl

/-! ### loadTable -/

@[simp] theorem State.loadTable_platform (s : State) (a : Nat) : (s.loadTable a).platform = s.platform := rfl
@[simp] theorem State.loadTable_resetIn (s : State) (a : Nat) : (s.loadTable a).resetIn = s.resetIn := rfl
@[simp] theorem State.loadTable_phase (s : State) (a : Nat) : (s.loadTable a).phase = s.phase := rfl
@[simp] theorem State.loadTable_result (s : State) (a : Nat) : (s.loadTable a).result = s.result := rfl
@[simp] theorem State.loadTable_errcode (s : State) (a : Nat) : (s.loadTable a).errcode = s.errcode := rfl
@[simp] theorem State.loadTable_width (s : State) (a : Nat) : (s.loadTable a).width = s.width := rfl
@[simp] theorem State.loadTable_height (s : State) (a : Nat) : (s.loadTable a).height = s.height := rfl
@[simp] theorem State.loadTable_radius (s : State) (a : Nat) : (s.loadTable a).radius = s.radius := rfl
@[simp] theorem State.loadTable_bufLen (s : State) (a : Nat) : (s.loadTable a).bufLen = s.bufLen := rfl
@[simp] theorem State.loadTable_dtMul (s : State) (a : Nat) : (s.loadTable a).dtMul = divtabMul a := rfl
@[simp] theorem State.loadTable_dtShift (s : State) (a : Nat) : (s.loadTable a).dtShift = divtabShift a := rfl
@[simp] theorem State.loadTable_line (s : State) (a : Nat) : (s.loadTable a).line = s.line := rfl
@[simp] theorem State.loadTable_pos (s : State) (a : Nat) : (s.loadTable a).pos = s.pos := rfl
@[simp] theorem State.loadTable_sub (s : State) (a : Nat) : (s.loadTable a).sub = s.sub := rfl
@[simp] theorem State.loadTable_latW (s : State) (a : Nat) : (s.loadTable a).latW = s.latW := rfl
@[simp] theorem State.loadTable_latH (s : State) (a : Nat) : (s.loadTable a).latH = s.latH := rfl
@[simp] theorem State.loadTable_latR (s : State) (a : Nat) : (s.loadTable a).latR = s.latR := rfl
@[simp] theorem State.loadTable_latMul (s : State) (a : Nat) : (s.loadTable a).latMul = s.latMul := rfl
@[simp] theorem State.loadTable_latSh (s : State) (a : Nat) : (s.loadTable a).latSh = s.latSh := rfl
@[simp] theorem State.loadTable_lanes (s : State) (a : Nat) : (s.loadTable a).lanes = s.lanes := rfl
@[simp] theorem State.loadTable_head (s : State) (a : Nat) : (s.loadTable a).head = s.head := rfl
@[simp] theorem State.loadTable_tail (s : State) (a : Nat) : (s.loadTable a).tail = s.tail := rfl
@[simp] theorem State.loadTable_pix (s : State) (a : Nat) : (s.loadTable a).pix = s.pix := rfl
@[simp] theorem State.loadTable_loan (s : State) (a : Nat) : (s.loadTable a).loan = s.loan := rfl
@[simp] theorem State.loadTable_events (s : State) (a : Nat) : (s.loadTable a).events = s.events := rfl
@[simp] theorem State.loadTable_replies (s : State) (a : Nat) : (s.loadTable a).replies = s.replies := rfl
@[simp] theorem State.loadTable_draws (s : State) (a : Nat) : (s.loadTable a).draws = s.draws := rfl

/-! ### latch -/

@[simp] theorem State.latch_platform (s : State) : s.latch.platform = s.platform := rfl
@[simp] theorem State.latch_resetIn (s : State) : s.latch.resetIn = s.resetIn := rfl
@[simp] theorem State.latch_phase (s : State) : s.latch.phase = s.phase := rfl
@[simp] theorem State.latch_result (s : State) : s.latch.result = s.result := rfl
@[simp] theorem State.latch_errcode (s : State) : s.latch.errcode = s.errcode := rfl
@[simp] theorem State.latch_width (s : State) : s.latch.width = s.width := rfl
@[simp] theorem State.latch_height (s : State) : s.latch.height = s.height := rfl
@[simp] theorem State.latch_radius (s : State) : s.latch.radius = s.radius := rfl
@[simp] theorem State.latch_bufLen (s : State) : s.latch.bufLen = s.bufLen := rfl
@[simp] theorem State.latch_dtMul (s : State) : s.latch.dtMul = s.dtMul := rfl
@[simp] theorem State.latch_dtShift (s : State) : s.latch.dtShift = s.dtShift := rfl
@[simp] theorem State.latch_line (s : State) : s.latch.line = s.line := rfl
@[simp] theorem State.latch_pos (s : State) : s.latch.pos = s.pos := rfl
@[simp] theorem State.latch_sub (s : State) : s.latch.sub = s.sub := rfl
@[simp] theorem State.latch_latW (s : State) : s.latch.latW = s.width := rfl
@[simp] theorem State.latch_latH (s : State) : s.latch.latH = s.height := rfl
@[simp] theorem State.latch_latR (s : State) : s.latch.latR = s.radius.setWidth 8 := rfl
@[simp] theorem State.latch_latMul (s : State) : s.latch.latMul = divtabMul s.argR.toNat := rfl
@[simp] theorem State.latch_latSh (s : State) : s.latch.latSh = divtabShift s.argR.toNat := rfl
@[simp] theorem State.latch_lanes (s : State) : s.latch.lanes = s.lanes := rfl
@[simp] theorem State.latch_head (s : State) : s.latch.head = s.head := rfl
@[simp] theorem State.latch_tail (s : State) : s.latch.tail = s.tail := rfl
@[simp] theorem State.latch_pix (s : State) : s.latch.pix = s.pix := rfl
@[simp] theorem State.latch_loan (s : State) : s.latch.loan = s.loan := rfl
@[simp] theorem State.latch_events (s : State) : s.latch.events = s.events := rfl
@[simp] theorem State.latch_replies (s : State) : s.latch.replies = s.replies := rfl
@[simp] theorem State.latch_draws (s : State) : s.latch.draws = s.draws := rfl

/-! ### lend -/

@[simp] theorem State.lend_platform (s : State) (n : Nat) : (s.lend n).platform = s.platform := rfl
@[simp] theorem State.lend_resetIn (s : State) (n : Nat) : (s.lend n).resetIn = s.resetIn := rfl
@[simp] theorem State.lend_phase (s : State) (n : Nat) : (s.lend n).phase = s.phase := rfl
@[simp] theorem State.lend_result (s : State) (n : Nat) : (s.lend n).result = s.result := rfl
@[simp] theorem State.lend_errcode (s : State) (n : Nat) : (s.lend n).errcode = s.errcode := rfl
@[simp] theorem State.lend_width (s : State) (n : Nat) : (s.lend n).width = s.width := rfl
@[simp] theorem State.lend_height (s : State) (n : Nat) : (s.lend n).height = s.height := rfl
@[simp] theorem State.lend_radius (s : State) (n : Nat) : (s.lend n).radius = s.radius := rfl
@[simp] theorem State.lend_bufLen (s : State) (n : Nat) : (s.lend n).bufLen = s.bufLen := rfl
@[simp] theorem State.lend_dtMul (s : State) (n : Nat) : (s.lend n).dtMul = s.dtMul := rfl
@[simp] theorem State.lend_dtShift (s : State) (n : Nat) : (s.lend n).dtShift = s.dtShift := rfl
@[simp] theorem State.lend_line (s : State) (n : Nat) : (s.lend n).line = s.line := rfl
@[simp] theorem State.lend_pos (s : State) (n : Nat) : (s.lend n).pos = s.pos := rfl
@[simp] theorem State.lend_sub (s : State) (n : Nat) : (s.lend n).sub = s.sub := rfl
@[simp] theorem State.lend_latW (s : State) (n : Nat) : (s.lend n).latW = s.latW := rfl
@[simp] theorem State.lend_latH (s : State) (n : Nat) : (s.lend n).latH = s.latH := rfl
@[simp] theorem State.lend_latR (s : State) (n : Nat) : (s.lend n).latR = s.latR := rfl
@[simp] theorem State.lend_latMul (s : State) (n : Nat) : (s.lend n).latMul = s.latMul := rfl
@[simp] theorem State.lend_latSh (s : State) (n : Nat) : (s.lend n).latSh = s.latSh := rfl
@[simp] theorem State.lend_lanes (s : State) (n : Nat) : (s.lend n).lanes = s.lanes := rfl
@[simp] theorem State.lend_head (s : State) (n : Nat) : (s.lend n).head = s.head := rfl
@[simp] theorem State.lend_tail (s : State) (n : Nat) : (s.lend n).tail = s.tail := rfl
@[simp] theorem State.lend_pix (s : State) (n : Nat) : (s.lend n).pix = s.pix := rfl
@[simp] theorem State.lend_loan (s : State) (n : Nat) : (s.lend n).loan = max s.loan n := rfl
@[simp] theorem State.lend_events (s : State) (n : Nat) : (s.lend n).events = s.events := rfl
@[simp] theorem State.lend_replies (s : State) (n : Nat) : (s.lend n).replies = s.replies := rfl
@[simp] theorem State.lend_draws (s : State) (n : Nat) : (s.lend n).draws = s.draws := rfl

/-! ### startPass -/

@[simp] theorem State.startPass_platform (s : State) (p : Phase) : (s.startPass p).platform = s.platform := rfl
@[simp] theorem State.startPass_resetIn (s : State) (p : Phase) : (s.startPass p).resetIn = s.resetIn := rfl
@[simp] theorem State.startPass_phase (s : State) (p : Phase) : (s.startPass p).phase = p := rfl
@[simp] theorem State.startPass_result (s : State) (p : Phase) : (s.startPass p).result = s.result := rfl
@[simp] theorem State.startPass_errcode (s : State) (p : Phase) : (s.startPass p).errcode = s.errcode := rfl
@[simp] theorem State.startPass_width (s : State) (p : Phase) : (s.startPass p).width = s.width := rfl
@[simp] theorem State.startPass_height (s : State) (p : Phase) : (s.startPass p).height = s.height := rfl
@[simp] theorem State.startPass_radius (s : State) (p : Phase) : (s.startPass p).radius = s.radius := rfl
@[simp] theorem State.startPass_bufLen (s : State) (p : Phase) : (s.startPass p).bufLen = s.bufLen := rfl
@[simp] theorem State.startPass_dtMul (s : State) (p : Phase) : (s.startPass p).dtMul = s.dtMul := rfl
@[simp] theorem State.startPass_dtShift (s : State) (p : Phase) : (s.startPass p).dtShift = s.dtShift := rfl
@[simp] theorem State.startPass_line (s : State) (p : Phase) : (s.startPass p).line = 0 := rfl
@[simp] theorem State.startPass_pos (s : State) (p : Phase) : (s.startPass p).pos = 0 := rfl
@[simp] theorem State.startPass_sub (s : State) (p : Phase) : (s.startPass p).sub = .seeding := rfl
@[simp] theorem State.startPass_latW (s : State) (p : Phase) : (s.startPass p).latW = s.latW := rfl
@[simp] theorem State.startPass_latH (s : State) (p : Phase) : (s.startPass p).latH = s.latH := rfl
@[simp] theorem State.startPass_latR (s : State) (p : Phase) : (s.startPass p).latR = s.latR := rfl
@[simp] theorem State.startPass_latMul (s : State) (p : Phase) : (s.startPass p).latMul = s.latMul := rfl
@[simp] theorem State.startPass_latSh (s : State) (p : Phase) : (s.startPass p).latSh = s.latSh := rfl
@[simp] theorem State.startPass_lanes (s : State) (p : Phase) : (s.startPass p).lanes = s.lanes := rfl
@[simp] theorem State.startPass_head (s : State) (p : Phase) : (s.startPass p).head = s.head := rfl
@[simp] theorem State.startPass_tail (s : State) (p : Phase) : (s.startPass p).tail = s.tail := rfl
@[simp] theorem State.startPass_pix (s : State) (p : Phase) : (s.startPass p).pix = s.pix := rfl
@[simp] theorem State.startPass_loan (s : State) (p : Phase) : (s.startPass p).loan = s.loan := rfl
@[simp] theorem State.startPass_events (s : State) (p : Phase) : (s.startPass p).events = s.events := rfl
@[simp] theorem State.startPass_replies (s : State) (p : Phase) : (s.startPass p).replies = s.replies := rfl
@[simp] theorem State.startPass_draws (s : State) (p : Phase) : (s.startPass p).draws = s.draws := rfl

/-! ### startBlur -/

@[simp] theorem State.startBlur_platform (s : State) : s.startBlur.platform = s.platform := rfl
@[simp] theorem State.startBlur_resetIn (s : State) : s.startBlur.resetIn = s.resetIn := rfl
@[simp] theorem State.startBlur_phase (s : State) : s.startBlur.phase = .rowpass := rfl
@[simp] theorem State.startBlur_result (s : State) : s.startBlur.result = .none := rfl
@[simp] theorem State.startBlur_errcode (s : State) : s.startBlur.errcode = .none := rfl
@[simp] theorem State.startBlur_width (s : State) : s.startBlur.width = s.width := rfl
@[simp] theorem State.startBlur_height (s : State) : s.startBlur.height = s.height := rfl
@[simp] theorem State.startBlur_radius (s : State) : s.startBlur.radius = s.radius := rfl
@[simp] theorem State.startBlur_bufLen (s : State) : s.startBlur.bufLen = s.bufLen := rfl
@[simp] theorem State.startBlur_dtMul (s : State) : s.startBlur.dtMul = s.dtMul := rfl
@[simp] theorem State.startBlur_dtShift (s : State) : s.startBlur.dtShift = s.dtShift := rfl
@[simp] theorem State.startBlur_line (s : State) : s.startBlur.line = 0 := rfl
@[simp] theorem State.startBlur_pos (s : State) : s.startBlur.pos = 0 := rfl
@[simp] theorem State.startBlur_sub (s : State) : s.startBlur.sub = .seeding := rfl
@[simp] theorem State.startBlur_latW (s : State) : s.startBlur.latW = s.width := rfl
@[simp] theorem State.startBlur_latH (s : State) : s.startBlur.latH = s.height := rfl
@[simp] theorem State.startBlur_latR (s : State) : s.startBlur.latR = s.radius.setWidth 8 := rfl
@[simp] theorem State.startBlur_latMul (s : State) : s.startBlur.latMul = divtabMul s.argR.toNat := rfl
@[simp] theorem State.startBlur_latSh (s : State) : s.startBlur.latSh = divtabShift s.argR.toNat := rfl
@[simp] theorem State.startBlur_lanes (s : State) : s.startBlur.lanes = s.lanes := rfl
@[simp] theorem State.startBlur_head (s : State) : s.startBlur.head = s.head := rfl
@[simp] theorem State.startBlur_tail (s : State) : s.startBlur.tail = s.tail := rfl
@[simp] theorem State.startBlur_pix (s : State) : s.startBlur.pix = s.pix := rfl
@[simp] theorem State.startBlur_loan (s : State) : s.startBlur.loan = max s.loan s.argLen := rfl
@[simp] theorem State.startBlur_events (s : State) : s.startBlur.events = s.events := rfl
@[simp] theorem State.startBlur_replies (s : State) : s.startBlur.replies = s.replies := rfl
@[simp] theorem State.startBlur_draws (s : State) : s.startBlur.draws = s.draws := rfl

/-! ### complete -/

@[simp] theorem State.complete_platform (s : State) : s.complete.platform = s.platform := rfl
@[simp] theorem State.complete_resetIn (s : State) : s.complete.resetIn = s.resetIn := rfl
@[simp] theorem State.complete_phase (s : State) : s.complete.phase = .done := rfl
@[simp] theorem State.complete_result (s : State) : s.complete.result = .ok := rfl
@[simp] theorem State.complete_errcode (s : State) : s.complete.errcode = s.errcode := rfl
@[simp] theorem State.complete_width (s : State) : s.complete.width = s.width := rfl
@[simp] theorem State.complete_height (s : State) : s.complete.height = s.height := rfl
@[simp] theorem State.complete_radius (s : State) : s.complete.radius = s.radius := rfl
@[simp] theorem State.complete_bufLen (s : State) : s.complete.bufLen = s.bufLen := rfl
@[simp] theorem State.complete_dtMul (s : State) : s.complete.dtMul = s.dtMul := rfl
@[simp] theorem State.complete_dtShift (s : State) : s.complete.dtShift = s.dtShift := rfl
@[simp] theorem State.complete_line (s : State) : s.complete.line = s.line := rfl
@[simp] theorem State.complete_pos (s : State) : s.complete.pos = s.pos := rfl
@[simp] theorem State.complete_sub (s : State) : s.complete.sub = s.sub := rfl
@[simp] theorem State.complete_latW (s : State) : s.complete.latW = s.latW := rfl
@[simp] theorem State.complete_latH (s : State) : s.complete.latH = s.latH := rfl
@[simp] theorem State.complete_latR (s : State) : s.complete.latR = s.latR := rfl
@[simp] theorem State.complete_latMul (s : State) : s.complete.latMul = s.latMul := rfl
@[simp] theorem State.complete_latSh (s : State) : s.complete.latSh = s.latSh := rfl
@[simp] theorem State.complete_lanes (s : State) : s.complete.lanes = s.lanes := rfl
@[simp] theorem State.complete_head (s : State) : s.complete.head = s.head := rfl
@[simp] theorem State.complete_tail (s : State) : s.complete.tail = s.tail := rfl
@[simp] theorem State.complete_pix (s : State) : s.complete.pix = s.pix := rfl
@[simp] theorem State.complete_loan (s : State) : s.complete.loan = s.loan := rfl
@[simp] theorem State.complete_events (s : State) : s.complete.events = s.events := rfl
@[simp] theorem State.complete_replies (s : State) : s.complete.replies = s.replies := rfl
@[simp] theorem State.complete_draws (s : State) : s.complete.draws = s.draws := rfl

/-! ### releaseReset -/

@[simp] theorem State.releaseReset_platform (s : State) : s.releaseReset.platform = s.platform := rfl
@[simp] theorem State.releaseReset_resetIn (s : State) : s.releaseReset.resetIn = false := rfl
@[simp] theorem State.releaseReset_phase (s : State) : s.releaseReset.phase = s.phase := rfl
@[simp] theorem State.releaseReset_result (s : State) : s.releaseReset.result = s.result := rfl
@[simp] theorem State.releaseReset_errcode (s : State) : s.releaseReset.errcode = s.errcode := rfl
@[simp] theorem State.releaseReset_width (s : State) : s.releaseReset.width = s.width := rfl
@[simp] theorem State.releaseReset_height (s : State) : s.releaseReset.height = s.height := rfl
@[simp] theorem State.releaseReset_radius (s : State) : s.releaseReset.radius = s.radius := rfl
@[simp] theorem State.releaseReset_bufLen (s : State) : s.releaseReset.bufLen = s.bufLen := rfl
@[simp] theorem State.releaseReset_dtMul (s : State) : s.releaseReset.dtMul = s.dtMul := rfl
@[simp] theorem State.releaseReset_dtShift (s : State) : s.releaseReset.dtShift = s.dtShift := rfl
@[simp] theorem State.releaseReset_line (s : State) : s.releaseReset.line = s.line := rfl
@[simp] theorem State.releaseReset_pos (s : State) : s.releaseReset.pos = s.pos := rfl
@[simp] theorem State.releaseReset_sub (s : State) : s.releaseReset.sub = s.sub := rfl
@[simp] theorem State.releaseReset_latW (s : State) : s.releaseReset.latW = s.latW := rfl
@[simp] theorem State.releaseReset_latH (s : State) : s.releaseReset.latH = s.latH := rfl
@[simp] theorem State.releaseReset_latR (s : State) : s.releaseReset.latR = s.latR := rfl
@[simp] theorem State.releaseReset_latMul (s : State) : s.releaseReset.latMul = s.latMul := rfl
@[simp] theorem State.releaseReset_latSh (s : State) : s.releaseReset.latSh = s.latSh := rfl
@[simp] theorem State.releaseReset_lanes (s : State) : s.releaseReset.lanes = s.lanes := rfl
@[simp] theorem State.releaseReset_head (s : State) : s.releaseReset.head = s.head := rfl
@[simp] theorem State.releaseReset_tail (s : State) : s.releaseReset.tail = s.tail := rfl
@[simp] theorem State.releaseReset_pix (s : State) : s.releaseReset.pix = s.pix := rfl
@[simp] theorem State.releaseReset_loan (s : State) : s.releaseReset.loan = s.loan := rfl
@[simp] theorem State.releaseReset_events (s : State) : s.releaseReset.events = s.events := rfl
@[simp] theorem State.releaseReset_replies (s : State) : s.releaseReset.replies = s.replies := rfl
@[simp] theorem State.releaseReset_draws (s : State) : s.releaseReset.draws = s.draws := rfl

/-! ### handBack: what it leaves alone -/

@[simp] theorem State.handBack_platform (s : State) (r : HostReg) : (s.handBack r).platform = s.platform := by
  unfold State.handBack; split <;> rfl
@[simp] theorem State.handBack_resetIn (s : State) (r : HostReg) : (s.handBack r).resetIn = s.resetIn := by
  unfold State.handBack; split <;> rfl
@[simp] theorem State.handBack_phase (s : State) (r : HostReg) : (s.handBack r).phase = s.phase := by
  unfold State.handBack; split <;> rfl
@[simp] theorem State.handBack_result (s : State) (r : HostReg) : (s.handBack r).result = s.result := by
  unfold State.handBack; split <;> rfl
@[simp] theorem State.handBack_errcode (s : State) (r : HostReg) : (s.handBack r).errcode = s.errcode := by
  unfold State.handBack; split <;> rfl
@[simp] theorem State.handBack_width (s : State) (r : HostReg) : (s.handBack r).width = s.width := by
  unfold State.handBack; split <;> rfl
@[simp] theorem State.handBack_height (s : State) (r : HostReg) : (s.handBack r).height = s.height := by
  unfold State.handBack; split <;> rfl
@[simp] theorem State.handBack_radius (s : State) (r : HostReg) : (s.handBack r).radius = s.radius := by
  unfold State.handBack; split <;> rfl
@[simp] theorem State.handBack_bufLen (s : State) (r : HostReg) : (s.handBack r).bufLen = s.bufLen := by
  unfold State.handBack; split <;> rfl
@[simp] theorem State.handBack_dtMul (s : State) (r : HostReg) : (s.handBack r).dtMul = s.dtMul := by
  unfold State.handBack; split <;> rfl
@[simp] theorem State.handBack_dtShift (s : State) (r : HostReg) : (s.handBack r).dtShift = s.dtShift := by
  unfold State.handBack; split <;> rfl
@[simp] theorem State.handBack_line (s : State) (r : HostReg) : (s.handBack r).line = s.line := by
  unfold State.handBack; split <;> rfl
@[simp] theorem State.handBack_pos (s : State) (r : HostReg) : (s.handBack r).pos = s.pos := by
  unfold State.handBack; split <;> rfl
@[simp] theorem State.handBack_sub (s : State) (r : HostReg) : (s.handBack r).sub = s.sub := by
  unfold State.handBack; split <;> rfl
@[simp] theorem State.handBack_latW (s : State) (r : HostReg) : (s.handBack r).latW = s.latW := by
  unfold State.handBack; split <;> rfl
@[simp] theorem State.handBack_latH (s : State) (r : HostReg) : (s.handBack r).latH = s.latH := by
  unfold State.handBack; split <;> rfl
@[simp] theorem State.handBack_latR (s : State) (r : HostReg) : (s.handBack r).latR = s.latR := by
  unfold State.handBack; split <;> rfl
@[simp] theorem State.handBack_latMul (s : State) (r : HostReg) : (s.handBack r).latMul = s.latMul := by
  unfold State.handBack; split <;> rfl
@[simp] theorem State.handBack_latSh (s : State) (r : HostReg) : (s.handBack r).latSh = s.latSh := by
  unfold State.handBack; split <;> rfl
@[simp] theorem State.handBack_lanes (s : State) (r : HostReg) : (s.handBack r).lanes = s.lanes := by
  unfold State.handBack; split <;> rfl
@[simp] theorem State.handBack_head (s : State) (r : HostReg) : (s.handBack r).head = s.head := by
  unfold State.handBack; split <;> rfl
@[simp] theorem State.handBack_tail (s : State) (r : HostReg) : (s.handBack r).tail = s.tail := by
  unfold State.handBack; split <;> rfl
@[simp] theorem State.handBack_pix (s : State) (r : HostReg) : (s.handBack r).pix = s.pix := by
  unfold State.handBack; split <;> rfl
@[simp] theorem State.handBack_events (s : State) (r : HostReg) : (s.handBack r).events = s.events := by
  unfold State.handBack; split <;> rfl
@[simp] theorem State.handBack_replies (s : State) (r : HostReg) : (s.handBack r).replies = s.replies := by
  unfold State.handBack; split <;> rfl
@[simp] theorem State.handBack_draws (s : State) (r : HostReg) : (s.handBack r).draws = s.draws := by
  unfold State.handBack; split <;> rfl

/-! ### storeReg: what it leaves alone -/

@[simp] theorem State.storeReg_platform (s : State) (r : HostReg) (v : Word) : (s.storeReg r v).platform = s.platform := by
  cases r <;> rfl
@[simp] theorem State.storeReg_resetIn (s : State) (r : HostReg) (v : Word) : (s.storeReg r v).resetIn = s.resetIn := by
  cases r <;> rfl
@[simp] theorem State.storeReg_phase (s : State) (r : HostReg) (v : Word) : (s.storeReg r v).phase = s.phase := by
  cases r <;> rfl
@[simp] theorem State.storeReg_result (s : State) (r : HostReg) (v : Word) : (s.storeReg r v).result = s.result := by
  cases r <;> rfl
@[simp] theorem State.storeReg_errcode (s : State) (r : HostReg) (v : Word) : (s.storeReg r v).errcode = s.errcode := by
  cases r <;> rfl
@[simp] theorem State.storeReg_dtMul (s : State) (r : HostReg) (v : Word) : (s.storeReg r v).dtMul = s.dtMul := by
  cases r <;> rfl
@[simp] theorem State.storeReg_dtShift (s : State) (r : HostReg) (v : Word) : (s.storeReg r v).dtShift = s.dtShift := by
  cases r <;> rfl
@[simp] theorem State.storeReg_line (s : State) (r : HostReg) (v : Word) : (s.storeReg r v).line = s.line := by
  cases r <;> rfl
@[simp] theorem State.storeReg_pos (s : State) (r : HostReg) (v : Word) : (s.storeReg r v).pos = s.pos := by
  cases r <;> rfl
@[simp] theorem State.storeReg_sub (s : State) (r : HostReg) (v : Word) : (s.storeReg r v).sub = s.sub := by
  cases r <;> rfl
@[simp] theorem State.storeReg_latW (s : State) (r : HostReg) (v : Word) : (s.storeReg r v).latW = s.latW := by
  cases r <;> rfl
@[simp] theorem State.storeReg_latH (s : State) (r : HostReg) (v : Word) : (s.storeReg r v).latH = s.latH := by
  cases r <;> rfl
@[simp] theorem State.storeReg_latR (s : State) (r : HostReg) (v : Word) : (s.storeReg r v).latR = s.latR := by
  cases r <;> rfl
@[simp] theorem State.storeReg_latMul (s : State) (r : HostReg) (v : Word) : (s.storeReg r v).latMul = s.latMul := by
  cases r <;> rfl
@[simp] theorem State.storeReg_latSh (s : State) (r : HostReg) (v : Word) : (s.storeReg r v).latSh = s.latSh := by
  cases r <;> rfl
@[simp] theorem State.storeReg_lanes (s : State) (r : HostReg) (v : Word) : (s.storeReg r v).lanes = s.lanes := by
  cases r <;> rfl
@[simp] theorem State.storeReg_head (s : State) (r : HostReg) (v : Word) : (s.storeReg r v).head = s.head := by
  cases r <;> rfl
@[simp] theorem State.storeReg_tail (s : State) (r : HostReg) (v : Word) : (s.storeReg r v).tail = s.tail := by
  cases r <;> rfl
@[simp] theorem State.storeReg_pix (s : State) (r : HostReg) (v : Word) : (s.storeReg r v).pix = s.pix := by
  cases r <;> rfl
@[simp] theorem State.storeReg_loan (s : State) (r : HostReg) (v : Word) : (s.storeReg r v).loan = s.loan := by
  cases r <;> rfl
@[simp] theorem State.storeReg_events (s : State) (r : HostReg) (v : Word) : (s.storeReg r v).events = s.events := by
  cases r <;> rfl
@[simp] theorem State.storeReg_replies (s : State) (r : HostReg) (v : Word) : (s.storeReg r v).replies = s.replies := by
  cases r <;> rfl
@[simp] theorem State.storeReg_draws (s : State) (r : HostReg) (v : Word) : (s.storeReg r v).draws = s.draws := by
  cases r <;> rfl

/-! ### advance: what it leaves alone -/

@[simp] theorem State.advance_platform (s : State) (p : Pass) : (s.advance p).platform = s.platform := by
  unfold State.advance; split; · rfl
  split; · rfl
  cases p <;> rfl
@[simp] theorem State.advance_resetIn (s : State) (p : Pass) : (s.advance p).resetIn = s.resetIn := by
  unfold State.advance; split; · rfl
  split; · rfl
  cases p <;> rfl
@[simp] theorem State.advance_errcode (s : State) (p : Pass) : (s.advance p).errcode = s.errcode := by
  unfold State.advance; split; · rfl
  split; · rfl
  cases p <;> rfl
@[simp] theorem State.advance_width (s : State) (p : Pass) : (s.advance p).width = s.width := by
  unfold State.advance; split; · rfl
  split; · rfl
  cases p <;> rfl
@[simp] theorem State.advance_height (s : State) (p : Pass) : (s.advance p).height = s.height := by
  unfold State.advance; split; · rfl
  split; · rfl
  cases p <;> rfl
@[simp] theorem State.advance_radius (s : State) (p : Pass) : (s.advance p).radius = s.radius := by
  unfold State.advance; split; · rfl
  split; · rfl
  cases p <;> rfl
@[simp] theorem State.advance_bufLen (s : State) (p : Pass) : (s.advance p).bufLen = s.bufLen := by
  unfold State.advance; split; · rfl
  split; · rfl
  cases p <;> rfl
@[simp] theorem State.advance_dtMul (s : State) (p : Pass) : (s.advance p).dtMul = s.dtMul := by
  unfold State.advance; split; · rfl
  split; · rfl
  cases p <;> rfl
@[simp] theorem State.advance_dtShift (s : State) (p : Pass) : (s.advance p).dtShift = s.dtShift := by
  unfold State.advance; split; · rfl
  split; · rfl
  cases p <;> rfl
@[simp] theorem State.advance_latW (s : State) (p : Pass) : (s.advance p).latW = s.latW := by
  unfold State.advance; split; · rfl
  split; · rfl
  cases p <;> rfl
@[simp] theorem State.advance_latH (s : State) (p : Pass) : (s.advance p).latH = s.latH := by
  unfold State.advance; split; · rfl
  split; · rfl
  cases p <;> rfl
@[simp] theorem State.advance_latR (s : State) (p : Pass) : (s.advance p).latR = s.latR := by
  unfold State.advance; split; · rfl
  split; · rfl
  cases p <;> rfl
@[simp] theorem State.advance_latMul (s : State) (p : Pass) : (s.advance p).latMul = s.latMul := by
  unfold State.advance; split; · rfl
  split; · rfl
  cases p <;> rfl
@[simp] theorem State.advance_latSh (s : State) (p : Pass) : (s.advance p).latSh = s.latSh := by
  unfold State.advance; split; · rfl
  split; · rfl
  cases p <;> rfl
@[simp] theorem State.advance_lanes (s : State) (p : Pass) : (s.advance p).lanes = s.lanes := by
  unfold State.advance; split; · rfl
  split; · rfl
  cases p <;> rfl
@[simp] theorem State.advance_head (s : State) (p : Pass) : (s.advance p).head = s.head := by
  unfold State.advance; split; · rfl
  split; · rfl
  cases p <;> rfl
@[simp] theorem State.advance_tail (s : State) (p : Pass) : (s.advance p).tail = s.tail := by
  unfold State.advance; split; · rfl
  split; · rfl
  cases p <;> rfl
@[simp] theorem State.advance_pix (s : State) (p : Pass) : (s.advance p).pix = s.pix := by
  unfold State.advance; split; · rfl
  split; · rfl
  cases p <;> rfl
@[simp] theorem State.advance_loan (s : State) (p : Pass) : (s.advance p).loan = s.loan := by
  unfold State.advance; split; · rfl
  split; · rfl
  cases p <;> rfl
@[simp] theorem State.advance_events (s : State) (p : Pass) : (s.advance p).events = s.events := by
  unfold State.advance; split; · rfl
  split; · rfl
  cases p <;> rfl
@[simp] theorem State.advance_replies (s : State) (p : Pass) : (s.advance p).replies = s.replies := by
  unfold State.advance; split; · rfl
  split; · rfl
  cases p <;> rfl
@[simp] theorem State.advance_draws (s : State) (p : Pass) : (s.advance p).draws = s.draws := by
  unfold State.advance; split; · rfl
  split; · rfl
  cases p <;> rfl

/-! ### seedChan: what it leaves alone -/

@[simp] theorem State.seedChan_platform (s : State) (p : Pass) (c : Chan) : (s.seedChan p c).platform = s.platform := by
  simp only [State.seedChan, State.setLane_platform]
@[simp] theorem State.seedChan_resetIn (s : State) (p : Pass) (c : Chan) : (s.seedChan p c).resetIn = s.resetIn := by
  simp only [State.seedChan, State.setLane_resetIn]
@[simp] theorem State.seedChan_phase (s : State) (p : Pass) (c : Chan) : (s.seedChan p c).phase = s.phase := by
  simp only [State.seedChan, State.setLane_phase]
@[simp] theorem State.seedChan_result (s : State) (p : Pass) (c : Chan) : (s.seedChan p c).result = s.result := by
  simp only [State.seedChan, State.setLane_result]
@[simp] theorem State.seedChan_errcode (s : State) (p : Pass) (c : Chan) : (s.seedChan p c).errcode = s.errcode := by
  simp only [State.seedChan, State.setLane_errcode]
@[simp] theorem State.seedChan_width (s : State) (p : Pass) (c : Chan) : (s.seedChan p c).width = s.width := by
  simp only [State.seedChan, State.setLane_width]
@[simp] theorem State.seedChan_height (s : State) (p : Pass) (c : Chan) : (s.seedChan p c).height = s.height := by
  simp only [State.seedChan, State.setLane_height]
@[simp] theorem State.seedChan_radius (s : State) (p : Pass) (c : Chan) : (s.seedChan p c).radius = s.radius := by
  simp only [State.seedChan, State.setLane_radius]
@[simp] theorem State.seedChan_bufLen (s : State) (p : Pass) (c : Chan) : (s.seedChan p c).bufLen = s.bufLen := by
  simp only [State.seedChan, State.setLane_bufLen]
@[simp] theorem State.seedChan_dtMul (s : State) (p : Pass) (c : Chan) : (s.seedChan p c).dtMul = s.dtMul := by
  simp only [State.seedChan, State.setLane_dtMul]
@[simp] theorem State.seedChan_dtShift (s : State) (p : Pass) (c : Chan) : (s.seedChan p c).dtShift = s.dtShift := by
  simp only [State.seedChan, State.setLane_dtShift]
@[simp] theorem State.seedChan_line (s : State) (p : Pass) (c : Chan) : (s.seedChan p c).line = s.line := by
  simp only [State.seedChan, State.setLane_line]
@[simp] theorem State.seedChan_pos (s : State) (p : Pass) (c : Chan) : (s.seedChan p c).pos = s.pos := by
  simp only [State.seedChan, State.setLane_pos]
@[simp] theorem State.seedChan_sub (s : State) (p : Pass) (c : Chan) : (s.seedChan p c).sub = s.sub := by
  simp only [State.seedChan, State.setLane_sub]
@[simp] theorem State.seedChan_latW (s : State) (p : Pass) (c : Chan) : (s.seedChan p c).latW = s.latW := by
  simp only [State.seedChan, State.setLane_latW]
@[simp] theorem State.seedChan_latH (s : State) (p : Pass) (c : Chan) : (s.seedChan p c).latH = s.latH := by
  simp only [State.seedChan, State.setLane_latH]
@[simp] theorem State.seedChan_latR (s : State) (p : Pass) (c : Chan) : (s.seedChan p c).latR = s.latR := by
  simp only [State.seedChan, State.setLane_latR]
@[simp] theorem State.seedChan_latMul (s : State) (p : Pass) (c : Chan) : (s.seedChan p c).latMul = s.latMul := by
  simp only [State.seedChan, State.setLane_latMul]
@[simp] theorem State.seedChan_latSh (s : State) (p : Pass) (c : Chan) : (s.seedChan p c).latSh = s.latSh := by
  simp only [State.seedChan, State.setLane_latSh]
@[simp] theorem State.seedChan_head (s : State) (p : Pass) (c : Chan) : (s.seedChan p c).head = s.head := by
  simp only [State.seedChan, State.setLane_head]
@[simp] theorem State.seedChan_tail (s : State) (p : Pass) (c : Chan) : (s.seedChan p c).tail = s.tail := by
  simp only [State.seedChan, State.setLane_tail]
@[simp] theorem State.seedChan_pix (s : State) (p : Pass) (c : Chan) : (s.seedChan p c).pix = s.pix := by
  simp only [State.seedChan, State.setLane_pix]
@[simp] theorem State.seedChan_loan (s : State) (p : Pass) (c : Chan) : (s.seedChan p c).loan = s.loan := by
  simp only [State.seedChan, State.setLane_loan]
@[simp] theorem State.seedChan_events (s : State) (p : Pass) (c : Chan) : (s.seedChan p c).events = s.events := by
  simp only [State.seedChan, State.setLane_events]
@[simp] theorem State.seedChan_replies (s : State) (p : Pass) (c : Chan) : (s.seedChan p c).replies = s.replies := by
  simp only [State.seedChan, State.setLane_replies]
@[simp] theorem State.seedChan_draws (s : State) (p : Pass) (c : Chan) : (s.seedChan p c).draws = s.draws := by
  simp only [State.seedChan, State.setLane_draws]

/-! ### slideChan: what it leaves alone -/

@[simp] theorem State.slideChan_platform (s : State) (p : Pass) (c : Chan) : (s.slideChan p c).platform = s.platform := by
  simp only [State.slideChan, State.setLane_platform, State.memWrite_platform]
@[simp] theorem State.slideChan_resetIn (s : State) (p : Pass) (c : Chan) : (s.slideChan p c).resetIn = s.resetIn := by
  simp only [State.slideChan, State.setLane_resetIn, State.memWrite_resetIn]
@[simp] theorem State.slideChan_phase (s : State) (p : Pass) (c : Chan) : (s.slideChan p c).phase = s.phase := by
  simp only [State.slideChan, State.setLane_phase, State.memWrite_phase]
@[simp] theorem State.slideChan_result (s : State) (p : Pass) (c : Chan) : (s.slideChan p c).result = s.result := by
  simp only [State.slideChan, State.setLane_result, State.memWrite_result]
@[simp] theorem State.slideChan_errcode (s : State) (p : Pass) (c : Chan) : (s.slideChan p c).errcode = s.errcode := by
  simp only [State.slideChan, State.setLane_errcode, State.memWrite_errcode]
@[simp] theorem State.slideChan_width (s : State) (p : Pass) (c : Chan) : (s.slideChan p c).width = s.width := by
  simp only [State.slideChan, State.setLane_width, State.memWrite_width]
@[simp] theorem State.slideChan_height (s : State) (p : Pass) (c : Chan) : (s.slideChan p c).height = s.height := by
  simp only [State.slideChan, State.setLane_height, State.memWrite_height]
@[simp] theorem State.slideChan_radius (s : State) (p : Pass) (c : Chan) : (s.slideChan p c).radius = s.radius := by
  simp only [State.slideChan, State.setLane_radius, State.memWrite_radius]
@[simp] theorem State.slideChan_bufLen (s : State) (p : Pass) (c : Chan) : (s.slideChan p c).bufLen = s.bufLen := by
  simp only [State.slideChan, State.setLane_bufLen, State.memWrite_bufLen]
@[simp] theorem State.slideChan_dtMul (s : State) (p : Pass) (c : Chan) : (s.slideChan p c).dtMul = s.dtMul := by
  simp only [State.slideChan, State.setLane_dtMul, State.memWrite_dtMul]
@[simp] theorem State.slideChan_dtShift (s : State) (p : Pass) (c : Chan) : (s.slideChan p c).dtShift = s.dtShift := by
  simp only [State.slideChan, State.setLane_dtShift, State.memWrite_dtShift]
@[simp] theorem State.slideChan_line (s : State) (p : Pass) (c : Chan) : (s.slideChan p c).line = s.line := by
  simp only [State.slideChan, State.setLane_line, State.memWrite_line]
@[simp] theorem State.slideChan_pos (s : State) (p : Pass) (c : Chan) : (s.slideChan p c).pos = s.pos := by
  simp only [State.slideChan, State.setLane_pos, State.memWrite_pos]
@[simp] theorem State.slideChan_sub (s : State) (p : Pass) (c : Chan) : (s.slideChan p c).sub = s.sub := by
  simp only [State.slideChan, State.setLane_sub, State.memWrite_sub]
@[simp] theorem State.slideChan_latW (s : State) (p : Pass) (c : Chan) : (s.slideChan p c).latW = s.latW := by
  simp only [State.slideChan, State.setLane_latW, State.memWrite_latW]
@[simp] theorem State.slideChan_latH (s : State) (p : Pass) (c : Chan) : (s.slideChan p c).latH = s.latH := by
  simp only [State.slideChan, State.setLane_latH, State.memWrite_latH]
@[simp] theorem State.slideChan_latR (s : State) (p : Pass) (c : Chan) : (s.slideChan p c).latR = s.latR := by
  simp only [State.slideChan, State.setLane_latR, State.memWrite_latR]
@[simp] theorem State.slideChan_latMul (s : State) (p : Pass) (c : Chan) : (s.slideChan p c).latMul = s.latMul := by
  simp only [State.slideChan, State.setLane_latMul, State.memWrite_latMul]
@[simp] theorem State.slideChan_latSh (s : State) (p : Pass) (c : Chan) : (s.slideChan p c).latSh = s.latSh := by
  simp only [State.slideChan, State.setLane_latSh, State.memWrite_latSh]
@[simp] theorem State.slideChan_head (s : State) (p : Pass) (c : Chan) : (s.slideChan p c).head = s.head := by
  simp only [State.slideChan, State.setLane_head, State.memWrite_head]
@[simp] theorem State.slideChan_tail (s : State) (p : Pass) (c : Chan) : (s.slideChan p c).tail = s.tail := by
  simp only [State.slideChan, State.setLane_tail, State.memWrite_tail]
@[simp] theorem State.slideChan_loan (s : State) (p : Pass) (c : Chan) : (s.slideChan p c).loan = s.loan := by
  simp only [State.slideChan, State.setLane_loan, State.memWrite_loan]
@[simp] theorem State.slideChan_events (s : State) (p : Pass) (c : Chan) : (s.slideChan p c).events = s.events := by
  simp only [State.slideChan, State.setLane_events, State.memWrite_events]
@[simp] theorem State.slideChan_replies (s : State) (p : Pass) (c : Chan) : (s.slideChan p c).replies = s.replies := by
  simp only [State.slideChan, State.setLane_replies, State.memWrite_replies]
@[simp] theorem State.slideChan_draws (s : State) (p : Pass) (c : Chan) : (s.slideChan p c).draws = s.draws := by
  simp only [State.slideChan, State.setLane_draws, State.memWrite_draws]

/-! ### seed: what it leaves alone -/

@[simp] theorem State.seed_platform (s : State) (p : Pass) : (s.seed p).platform = s.platform := by
  simp only [State.seed, State.seedChan_platform]
@[simp] theorem State.seed_resetIn (s : State) (p : Pass) : (s.seed p).resetIn = s.resetIn := by
  simp only [State.seed, State.seedChan_resetIn]
@[simp] theorem State.seed_phase (s : State) (p : Pass) : (s.seed p).phase = s.phase := by
  simp only [State.seed, State.seedChan_phase]
@[simp] theorem State.seed_result (s : State) (p : Pass) : (s.seed p).result = s.result := by
  simp only [State.seed, State.seedChan_result]
@[simp] theorem State.seed_errcode (s : State) (p : Pass) : (s.seed p).errcode = s.errcode := by
  simp only [State.seed, State.seedChan_errcode]
@[simp] theorem State.seed_width (s : State) (p : Pass) : (s.seed p).width = s.width := by
  simp only [State.seed, State.seedChan_width]
@[simp] theorem State.seed_height (s : State) (p : Pass) : (s.seed p).height = s.height := by
  simp only [State.seed, State.seedChan_height]
@[simp] theorem State.seed_radius (s : State) (p : Pass) : (s.seed p).radius = s.radius := by
  simp only [State.seed, State.seedChan_radius]
@[simp] theorem State.seed_bufLen (s : State) (p : Pass) : (s.seed p).bufLen = s.bufLen := by
  simp only [State.seed, State.seedChan_bufLen]
@[simp] theorem State.seed_dtMul (s : State) (p : Pass) : (s.seed p).dtMul = s.dtMul := by
  simp only [State.seed, State.seedChan_dtMul]
@[simp] theorem State.seed_dtShift (s : State) (p : Pass) : (s.seed p).dtShift = s.dtShift := by
  simp only [State.seed, State.seedChan_dtShift]
@[simp] theorem State.seed_line (s : State) (p : Pass) : (s.seed p).line = s.line := by
  simp only [State.seed, State.seedChan_line]
@[simp] theorem State.seed_latW (s : State) (p : Pass) : (s.seed p).latW = s.latW := by
  simp only [State.seed, State.seedChan_latW]
@[simp] theorem State.seed_latH (s : State) (p : Pass) : (s.seed p).latH = s.latH := by
  simp only [State.seed, State.seedChan_latH]
@[simp] theorem State.seed_latR (s : State) (p : Pass) : (s.seed p).latR = s.latR := by
  simp only [State.seed, State.seedChan_latR]
@[simp] theorem State.seed_latMul (s : State) (p : Pass) : (s.seed p).latMul = s.latMul := by
  simp only [State.seed, State.seedChan_latMul]
@[simp] theorem State.seed_latSh (s : State) (p : Pass) : (s.seed p).latSh = s.latSh := by
  simp only [State.seed, State.seedChan_latSh]
@[simp] theorem State.seed_pix (s : State) (p : Pass) : (s.seed p).pix = s.pix := by
  simp only [State.seed, State.seedChan_pix]
@[simp] theorem State.seed_loan (s : State) (p : Pass) : (s.seed p).loan = s.loan := by
  simp only [State.seed, State.seedChan_loan]
@[simp] theorem State.seed_events (s : State) (p : Pass) : (s.seed p).events = s.events := by
  simp only [State.seed, State.seedChan_events]
@[simp] theorem State.seed_replies (s : State) (p : Pass) : (s.seed p).replies = s.replies := by
  simp only [State.seed, State.seedChan_replies]
@[simp] theorem State.seed_draws (s : State) (p : Pass) : (s.seed p).draws = s.draws := by
  simp only [State.seed, State.seedChan_draws]

/-! ### slide: what it leaves alone -/

@[simp] theorem State.slide_platform (s : State) (p : Pass) : (s.slide p).platform = s.platform := by
  simp only [State.slide, State.advance_platform, State.slideChan_platform]
@[simp] theorem State.slide_resetIn (s : State) (p : Pass) : (s.slide p).resetIn = s.resetIn := by
  simp only [State.slide, State.advance_resetIn, State.slideChan_resetIn]
@[simp] theorem State.slide_errcode (s : State) (p : Pass) : (s.slide p).errcode = s.errcode := by
  simp only [State.slide, State.advance_errcode, State.slideChan_errcode]
@[simp] theorem State.slide_width (s : State) (p : Pass) : (s.slide p).width = s.width := by
  simp only [State.slide, State.advance_width, State.slideChan_width]
@[simp] theorem State.slide_height (s : State) (p : Pass) : (s.slide p).height = s.height := by
  simp only [State.slide, State.advance_height, State.slideChan_height]
@[simp] theorem State.slide_radius (s : State) (p : Pass) : (s.slide p).radius = s.radius := by
  simp only [State.slide, State.advance_radius, State.slideChan_radius]
@[simp] theorem State.slide_bufLen (s : State) (p : Pass) : (s.slide p).bufLen = s.bufLen := by
  simp only [State.slide, State.advance_bufLen, State.slideChan_bufLen]
@[simp] theorem State.slide_dtMul (s : State) (p : Pass) : (s.slide p).dtMul = s.dtMul := by
  simp only [State.slide, State.advance_dtMul, State.slideChan_dtMul]
@[simp] theorem State.slide_dtShift (s : State) (p : Pass) : (s.slide p).dtShift = s.dtShift := by
  simp only [State.slide, State.advance_dtShift, State.slideChan_dtShift]
@[simp] theorem State.slide_latW (s : State) (p : Pass) : (s.slide p).latW = s.latW := by
  simp only [State.slide, State.advance_latW, State.slideChan_latW]
@[simp] theorem State.slide_latH (s : State) (p : Pass) : (s.slide p).latH = s.latH := by
  simp only [State.slide, State.advance_latH, State.slideChan_latH]
@[simp] theorem State.slide_latR (s : State) (p : Pass) : (s.slide p).latR = s.latR := by
  simp only [State.slide, State.advance_latR, State.slideChan_latR]
@[simp] theorem State.slide_latMul (s : State) (p : Pass) : (s.slide p).latMul = s.latMul := by
  simp only [State.slide, State.advance_latMul, State.slideChan_latMul]
@[simp] theorem State.slide_latSh (s : State) (p : Pass) : (s.slide p).latSh = s.latSh := by
  simp only [State.slide, State.advance_latSh, State.slideChan_latSh]
@[simp] theorem State.slide_loan (s : State) (p : Pass) : (s.slide p).loan = s.loan := by
  simp only [State.slide, State.advance_loan, State.slideChan_loan]
@[simp] theorem State.slide_events (s : State) (p : Pass) : (s.slide p).events = s.events := by
  simp only [State.slide, State.advance_events, State.slideChan_events]
@[simp] theorem State.slide_replies (s : State) (p : Pass) : (s.slide p).replies = s.replies := by
  simp only [State.slide, State.advance_replies, State.slideChan_replies]
@[simp] theorem State.slide_draws (s : State) (p : Pass) : (s.slide p).draws = s.draws := by
  simp only [State.slide, State.advance_draws, State.slideChan_draws]

/-- Only a STATUS read that returns DONE hands the buffer back (70_reset_and_hazards.md R173). -/
theorem State.handBack_loan (s : State) (r : HostReg) :
    (s.handBack r).loan = if r = .status ∧ s.phase = .done then 0 else s.loan := by
  unfold State.handBack
  split <;> rfl

/-! ### Lanes -/

@[simp] theorem Lanes.get_set_same (x : Lanes) (c : Chan) (l : Lane) : (x.set c l).get c = l := by
  cases c <;> rfl

theorem Lanes.get_set_other (x : Lanes) (c d : Chan) (l : Lane) (h : d ≠ c) : (x.set c l).get d = x.get d := by
  cases c <;> cases d <;> first | rfl | exact absurd rfl h

@[simp] theorem State.lane_setLane_same (s : State) (c : Chan) (l : Lane) : (s.setLane c l).lane c = l := by
  simp [State.lane]

theorem State.lane_setLane_other (s : State) (c d : Chan) (l : Lane) (h : d ≠ c) :
    (s.setLane c l).lane d = s.lane d := by
  simp [State.lane, Lanes.get_set_other _ _ _ _ h]

end Sys2Proof.Machine
end

