-- ==== Sys2Proof/Laws/Pix.lean ====
section
/-! SUPPORT. Pixel memory: a read after a write, and the canonical form every operation keeps. -/

namespace Sys2Proof.Machine

theorem Pix.read_nil (a : Nat) : Pix.read [] a = pixPowerOn a := rfl

theorem Pix.read_cons (x : Host.Cell) (m : Pix) (a : Nat) :
    Pix.read (x :: m) a = if x.1 = a then x.2 else Pix.read m a := by
  by_cases h : x.1 = a <;> simp [Pix.read, h]

/-- Reading sees only the first part of a list that lists the address. -/
theorem Pix.read_append (m n : Pix) (a : Nat) :
    Pix.read (m ++ n) a = if ∃ x ∈ m, x.1 = a then Pix.read m a else Pix.read n a := by
  induction m with
  | nil => simp
  | cons x m ih => by_cases h : x.1 = a <;> simp [Pix.read_cons, h, ih]

theorem Pix.read_unlisted (m : Pix) (a : Nat) (h : ∀ x ∈ m, x.1 ≠ a) : Pix.read m a = pixPowerOn a := by
  induction m with
  | nil => rfl
  | cons x m ih =>
    simp only [List.mem_cons, forall_eq_or_imp] at h
    simp [Pix.read_cons, h.1, ih h.2]

/-- Dropping the entries of another address changes no read. -/
theorem Pix.read_filter_other (m : Pix) (a b : Nat) (h : b ≠ a) :
    Pix.read (m.filter (fun cell => cell.1 != a)) b = Pix.read m b := by
  induction m with
  | nil => rfl
  | cons x m ih =>
    by_cases hx : x.1 = a
    · simp [hx, Pix.read_cons, ih, Ne.symm h]
    · simp [hx, Pix.read_cons, ih]

/-- A read after a write to the same address gives the byte written (20_memory.md R43). -/
theorem Pix.read_write_same (m : Pix) (a : Nat) (b : Byte) : Pix.read (Pix.write m a b) a = b := by
  have hf : ∀ x ∈ m.filter (fun cell => cell.1 != a), x.1 ≠ a := by simp
  unfold Pix.write
  split
  · rename_i h
    rw [Pix.read_unlisted _ _ hf, h]
  · have ht : ¬ ∃ x ∈ (m.filter (fun cell => cell.1 != a)).takeWhile (fun cell => decide (cell.1 < a)), x.1 = a := by
      rintro ⟨x, hx, he⟩
      exact hf x (List.takeWhile_sublist _ |>.subset hx) he
    rw [Pix.read_append, if_neg ht, Pix.read_cons, if_pos rfl]

/-- A write leaves every other address alone (20_memory.md R43). -/
theorem Pix.read_write_other (m : Pix) (a c : Nat) (b : Byte) (h : c ≠ a) :
    Pix.read (Pix.write m a b) c = Pix.read m c := by
  rw [← Pix.read_filter_other m a c h]
  unfold Pix.write
  split
  · rfl
  · conv_rhs => rw [← List.takeWhile_append_dropWhile (p := fun cell : Host.Cell => decide (cell.1 < a))
      (l := m.filter (fun cell => cell.1 != a))]
    rw [Pix.read_append, Pix.read_append, Pix.read_cons, if_neg (Ne.symm h)]

theorem Pix.read_write (m : Pix) (a c : Nat) (b : Byte) :
    Pix.read (Pix.write m a b) c = if c = a then b else Pix.read m c := by
  split
  · rename_i h
    rw [h, Pix.read_write_same]
  · rename_i h
    exact Pix.read_write_other m a c b h

/-- What a write lists: entries listed before, and perhaps the byte written. -/
theorem Pix.mem_write (m : Pix) (a : Nat) (b : Byte) (x : Host.Cell) (h : x ∈ Pix.write m a b) :
    (x = (a, b) ∧ b ≠ pixPowerOn a) ∨ (x ∈ m ∧ x.1 ≠ a) := by
  unfold Pix.write at h
  split at h
  · exact .inr (by simpa using h)
  · rename_i hb
    rw [List.mem_append, List.mem_cons] at h
    have hin : x ∈ m.filter (fun cell => cell.1 != a) → x ∈ m ∧ x.1 ≠ a := by simp
    obtain h | h | h := h
    · exact .inr (hin (List.takeWhile_sublist _ |>.subset h))
    · exact .inl ⟨h, hb⟩
    · exact .inr (hin (List.dropWhile_sublist _ |>.subset h))

/-- In a strictly rising list, everything after the addresses below `a` is at or above `a`. -/
theorem Pix.le_of_mem_dropWhile (m : Pix) (a : Nat) (h : m.Pairwise (fun x y => x.1 < y.1)) (x : Host.Cell)
    (hx : x ∈ m.dropWhile (fun cell => decide (cell.1 < a))) : a ≤ x.1 := by
  induction m with
  | nil => simp at hx
  | cons y m ih =>
    rw [List.pairwise_cons] at h
    by_cases hy : y.1 < a
    · exact ih h.2 (by simpa [List.dropWhile_cons, hy] using hx)
    · simp only [List.dropWhile_cons, hy, decide_false, Bool.false_eq_true, if_false, List.mem_cons] at hx
      obtain rfl | hx := hx
      · omega
      · have := h.1 x hx
        omega

/-- A write keeps the canonical form. -/
theorem Pix.write_wf (m : Pix) (a : Nat) (b : Byte) (h : m.wf) : (Pix.write m a b).wf := by
  refine ⟨?_, fun x hx => ?_⟩
  · have hf := h.1.filter (fun cell : Host.Cell => cell.1 != a)
    unfold Pix.write
    split
    · exact hf
    · rw [List.pairwise_append]
      refine ⟨hf.sublist (List.takeWhile_sublist _), List.pairwise_cons.mpr ⟨fun y hy => ?_,
        hf.sublist (List.dropWhile_sublist _)⟩, fun x hx y hy => ?_⟩
      · have := Pix.le_of_mem_dropWhile _ a hf y hy
        have hne : y.1 ≠ a := by
          have := List.dropWhile_sublist _ |>.subset hy
          simp only [List.mem_filter, bne_iff_ne] at this
          exact this.2
        show a < y.1
        omega
      · have hxa : x.1 < a := by simpa using List.mem_takeWhile_imp hx
        rw [List.mem_cons] at hy
        obtain rfl | hy := hy
        · exact hxa
        · exact lt_of_lt_of_le hxa (Pix.le_of_mem_dropWhile _ a hf y hy)
  · obtain ⟨rfl, hb⟩ | ⟨hm, -⟩ := Pix.mem_write m a b x hx
    · exact hb
    · exact h.2 x hm

/-- A write below the size lists nothing at or above it. -/
theorem Pix.write_below (m : Pix) (a n : Nat) (b : Byte) (h : m.below n) (ha : a < n) :
    (Pix.write m a b).below n := by
  intro x hx
  obtain ⟨rfl, -⟩ | ⟨hm, -⟩ := Pix.mem_write m a b x hx
  · exact ha
  · exact h x hm

/-- In a canonical memory an address is listed exactly when it does not read as the unlisted byte. -/
theorem Pix.read_of_mem (m : Pix) (h : m.wf) (x : Host.Cell) (hx : x ∈ m) : Pix.read m x.1 = x.2 := by
  induction m with
  | nil => simp at hx
  | cons y m ih =>
    have hp := List.pairwise_cons.mp h.1
    rw [Pix.read_cons]
    rw [List.mem_cons] at hx
    obtain rfl | hx := hx
    · simp
    · rw [if_neg (by have := hp.1 x hx; omega)]
      exact ih ⟨hp.2, fun z hz => h.2 z (List.mem_cons_of_mem _ hz)⟩ hx

@[simp] theorem State.memRead_memWrite_same (s : State) (a : Nat) (b : Byte) : (s.memWrite a b).memRead a = b :=
  Pix.read_write_same _ _ _

theorem State.memRead_memWrite_other (s : State) (a c : Nat) (b : Byte) (h : c ≠ a) :
    (s.memWrite a b).memRead c = s.memRead c :=
  Pix.read_write_other _ _ _ _ h

@[simp] theorem State.memRead_setLane (s : State) (c : Chan) (l : Lane) (a : Nat) :
    (s.setLane c l).memRead a = s.memRead a := rfl

/-! ### The buffer of a blur that reset cuts short (70_reset_and_hazards.md R171) -/

/-- Only R, G and B bytes below `len` are freed; every other byte reads as before. -/
theorem freedPix_read (d len : Nat) (m : Pix) (a : Nat) :
    Pix.read (freedPix d len m) a = if a < len ∧ a % 4 ≠ 3 then Config.freePix d a else Pix.read m a := by
  unfold freedPix
  induction len with
  | zero => simp
  | succ n ih =>
    rw [List.range_succ, List.foldl_append]
    simp only [List.foldl_cons, List.foldl_nil]
    by_cases hn : n % 4 = 3
    · rw [if_pos hn, ih]
      have : (a < n + 1 ∧ a % 4 ≠ 3) ↔ (a < n ∧ a % 4 ≠ 3) := by omega
      simp only [this]
    · rw [if_neg hn, Pix.read_write, ih]
      by_cases ha : a = n
      · subst ha
        simp [hn]
      · have : (a < n + 1 ∧ a % 4 ≠ 3) ↔ (a < n ∧ a % 4 ≠ 3) := by omega
        simp only [this, if_neg ha]

theorem freedPix_wf (d len : Nat) (m : Pix) (h : m.wf) : (freedPix d len m).wf := by
  unfold freedPix
  induction len with
  | zero => simpa using h
  | succ n ih =>
    rw [List.range_succ, List.foldl_append]
    simp only [List.foldl_cons, List.foldl_nil]
    split
    · exact ih
    · exact Pix.write_wf _ _ _ ih

theorem freedPix_below (d len size : Nat) (m : Pix) (h : m.below size) (hl : len ≤ size) :
    (freedPix d len m).below size := by
  unfold freedPix
  induction len with
  | zero => simpa using h
  | succ n ih =>
    rw [List.range_succ, List.foldl_append]
    simp only [List.foldl_cons, List.foldl_nil]
    split
    · exact ih (by omega)
    · exact Pix.write_below _ _ _ _ (ih (by omega)) (by omega)

end Sys2Proof.Machine
end

