-- ==== Sys2Proof/Laws/Sweep.lean ====
section
/-! SUPPORT. The ENGINE's micro-steps: the addresses they form (20_memory.md R45, R46), what SEED and SLIDE leave in each
lane and in PIX (41_sweep_kernel.md R92, R93, R98), and everything a turn of the ENGINE can do. -/

namespace Sys2Proof.Machine

/-! ### Addresses -/

theorem clampc_natCast (p n : Nat) (h : 1 ≤ n) : clampc (p : Int) n = min p (n - 1) := by
  unfold clampc
  omega

theorem clampc_lt (p : Int) (n : Nat) (h : 1 ≤ n) : clampc p n < n := by
  unfold clampc
  omega

/-- Inside the scanline the clamp changes nothing. -/
theorem clampc_of_lt (p n : Nat) (h : p < n) : clampc (p : Int) n = p := by
  unfold clampc
  omega

theorem Chan.idx_lt (c : Chan) : c.idx < 3 := by cases c <;> decide

theorem Chan.idx_inj (c d : Chan) (h : c.idx = d.idx) : c = d := by
  cases c <;> cases d <;> first | rfl | exact absurd h (by decide)

/-- An address belongs to its channel's byte lane (20_memory.md R42, R53). -/
theorem pixAddr_mod (w : Nat) (p : Pass) (l q : Nat) (c : Chan) : pixAddr w p l q c % 4 = c.idx := by
  have := c.idx_lt
  cases p <;> simp only [pixAddr] <;> omega

theorem pixAddr_ne_of_chan (w w' : Nat) (p p' : Pass) (l q l' q' : Nat) (c d : Chan) (h : c ≠ d) :
    pixAddr w p l q c ≠ pixAddr w' p' l' q' d := fun he =>
  h (Chan.idx_inj c d (by rw [← pixAddr_mod w p l q c, ← pixAddr_mod w' p' l' q' d, he]))

/-- A pixel inside a `w` by `h` image lies in its `4 * w * h` bytes (20_memory.md R42). -/
theorem pixelByte_lt (w h x y k : Nat) (hx : x < w) (hy : y < h) (hk : k < 4) :
    (y * w + x) * 4 + k < 4 * w * h := by
  have h1 : (y + 1) * w ≤ h * w := Nat.mul_le_mul_right w hy
  have h2 : (y + 1) * w = y * w + w := Nat.succ_mul y w
  have h3 : 4 * w * h = 4 * (h * w) := by rw [Nat.mul_assoc, Nat.mul_comm w h]
  omega

/-- A line and a position of the running pass give an address of the buffer (20_memory.md R45). -/
theorem State.pixAddr_lt (s : State) (p : Pass) (l q : Nat) (c : Chan) (hl : l < s.lineCount p)
    (hq : q < s.lineLength p) : pixAddr s.latW.toNat p l q c < 4 * s.latW.toNat * s.latH.toNat := by
  have hc := c.idx_lt
  cases p
  · exact pixelByte_lt _ _ _ _ _ hq hl (by omega)
  · exact pixelByte_lt _ _ _ _ _ hl hq (by omega)

/-! ### SEED -/

theorem State.seedChan_lane_same (s : State) (p : Pass) (c : Chan) : (s.seedChan p c).lane c =
    seedLane s.latR.toNat (fun i => s.memRead (s.sampleAddr p i c)) (s.lane c) := by
  simp [State.seedChan]

theorem State.seedChan_lane_other (s : State) (p : Pass) (c d : Chan) (h : d ≠ c) :
    (s.seedChan p c).lane d = s.lane d := by
  simp [State.seedChan, State.lane_setLane_other _ _ _ _ h]

@[simp] theorem State.seedChan_memRead (s : State) (p : Pass) (c : Chan) (a : Nat) :
    (s.seedChan p c).memRead a = s.memRead a := by simp [State.seedChan]

@[simp] theorem State.seedChan_sampleAddr (s : State) (p q : Pass) (c d : Chan) (i : Nat) :
    (s.seedChan p c).sampleAddr q i d = s.sampleAddr q i d := by
  cases q <;> simp [State.sampleAddr, State.lineLength]

@[simp] theorem State.seed_memRead (s : State) (p : Pass) (a : Nat) : (s.seed p).memRead a = s.memRead a := by
  simp [State.memRead]

/-- What SEED leaves in each lane: a function of that channel's samples (R92, R98). -/
theorem State.seed_lane (s : State) (p : Pass) (c : Chan) : (s.seed p).lane c =
    seedLane s.latR.toNat (fun i => s.memRead (s.sampleAddr p i c)) (s.lane c) := by
  show (((s.seedChan p .r).seedChan p .g).seedChan p .b).lane c = _
  cases c
  · rw [State.seedChan_lane_other _ _ _ _ (by decide), State.seedChan_lane_other _ _ _ _ (by decide),
      State.seedChan_lane_same]
  · rw [State.seedChan_lane_other _ _ _ _ (by decide), State.seedChan_lane_same,
      State.seedChan_lane_other _ _ _ _ (by decide)]
    simp
  · rw [State.seedChan_lane_same, State.seedChan_lane_other _ _ _ _ (by decide),
      State.seedChan_lane_other _ _ _ _ (by decide)]
    simp

@[simp] theorem State.seed_head (s : State) (p : Pass) : (s.seed p).head = 0 := rfl
@[simp] theorem State.seed_tail (s : State) (p : Pass) : (s.seed p).tail = BitVec.ofNat 9 (s.latR.toNat + 1) := by
  simp [State.seed]
@[simp] theorem State.seed_pos (s : State) (p : Pass) : (s.seed p).pos = 0 := rfl
@[simp] theorem State.seed_sub (s : State) (p : Pass) : (s.seed p).sub = .sliding := rfl

/-! ### SLIDE -/

/-- The sample that enters the window of channel `c`: read after the output has been written (R93, R96). -/
def State.entering (s : State) (p : Pass) (c : Chan) : Byte :=
  (s.memWrite (s.outAddr p c) (s.output c)).memRead (s.sampleAddr p (s.pos.toNat + s.latR.toNat + 1) c)

theorem State.outAddr_mod (s : State) (p : Pass) (c : Chan) : s.outAddr p c % 4 = c.idx := pixAddr_mod ..

theorem State.sampleAddr_mod (s : State) (p : Pass) (i : Nat) (c : Chan) : s.sampleAddr p i c % 4 = c.idx :=
  pixAddr_mod ..

theorem State.outAddr_ne (s : State) (p : Pass) (c d : Chan) (h : c ≠ d) : s.outAddr p c ≠ s.outAddr p d :=
  pixAddr_ne_of_chan _ _ _ _ _ _ _ _ _ _ h

/-- The byte that enters, in words: the output itself where the two addresses agree (R96), else what PIX holds. -/
theorem State.entering_eq (s : State) (p : Pass) (c : Chan) : s.entering p c =
    if s.sampleAddr p (s.pos.toNat + s.latR.toNat + 1) c = s.outAddr p c then s.output c
    else s.memRead (s.sampleAddr p (s.pos.toNat + s.latR.toNat + 1) c) :=
  Pix.read_write _ _ _ _

@[simp] theorem State.slideChan_outAddr (s : State) (p q : Pass) (c d : Chan) :
    (s.slideChan p c).outAddr q d = s.outAddr q d := by
  simp [State.outAddr]

@[simp] theorem State.slideChan_sampleAddr (s : State) (p q : Pass) (c d : Chan) (i : Nat) :
    (s.slideChan p c).sampleAddr q i d = s.sampleAddr q i d := by
  cases q <;> simp [State.sampleAddr, State.lineLength]

theorem State.slideChan_memRead (s : State) (p : Pass) (c : Chan) (a : Nat) :
    (s.slideChan p c).memRead a = if a = s.outAddr p c then s.output c else s.memRead a :=
  Pix.read_write _ _ _ _

theorem State.slideChan_lane_same (s : State) (p : Pass) (c : Chan) : (s.slideChan p c).lane c =
    slideLane (s.lane c) s.head.toNat s.tail.toNat (s.entering p c) := by
  simp only [State.slideChan, State.lane_setLane_same, State.memWrite_head, State.memWrite_tail]
  congr 1

theorem State.slideChan_lane_other (s : State) (p : Pass) (c d : Chan) (h : d ≠ c) :
    (s.slideChan p c).lane d = s.lane d := by
  rw [State.slideChan, State.lane_setLane_other _ _ _ _ h]
  simp [State.lane]

theorem State.slideChan_output_other (s : State) (p : Pass) (c d : Chan) (h : d ≠ c) :
    (s.slideChan p c).output d = s.output d := by
  simp [State.output, State.slideChan_lane_other _ _ _ _ h]

theorem State.slideChan_entering_other (s : State) (p : Pass) (c d : Chan) (h : d ≠ c) :
    (s.slideChan p c).entering p d = s.entering p d := by
  have hne : s.sampleAddr p (s.pos.toNat + s.latR.toNat + 1) d ≠ s.outAddr p c :=
    pixAddr_ne_of_chan _ _ _ _ _ _ _ _ _ _ h
  simp [State.entering_eq, State.slideChan_output_other _ _ _ _ h, State.slideChan_memRead, hne]

/-- The three channels of SLIDE, before the cursors and the sequencer move. -/
def State.slideLanes (s : State) (p : Pass) : State :=
  ((s.slideChan p .r).slideChan p .g).slideChan p .b

theorem State.slideLanes_lane (s : State) (p : Pass) (c : Chan) : (s.slideLanes p).lane c =
    slideLane (s.lane c) s.head.toNat s.tail.toNat (s.entering p c) := by
  unfold State.slideLanes
  cases c
  · rw [State.slideChan_lane_other _ _ _ _ (by decide), State.slideChan_lane_other _ _ _ _ (by decide),
      State.slideChan_lane_same]
  · rw [State.slideChan_lane_other _ _ _ _ (by decide), State.slideChan_lane_same,
      State.slideChan_lane_other _ _ _ _ (by decide), State.slideChan_entering_other _ _ _ _ (by decide)]
    simp
  · rw [State.slideChan_lane_same, State.slideChan_lane_other _ _ _ _ (by decide),
      State.slideChan_lane_other _ _ _ _ (by decide), State.slideChan_entering_other _ _ _ _ (by decide),
      State.slideChan_entering_other _ _ _ _ (by decide)]
    simp

theorem State.slideLanes_memRead (s : State) (p : Pass) (a : Nat) : (s.slideLanes p).memRead a =
    if a = s.outAddr p .b then s.output .b
    else if a = s.outAddr p .g then s.output .g
    else if a = s.outAddr p .r then s.output .r
    else s.memRead a := by
  simp [State.slideLanes, State.slideChan_memRead, State.slideChan_output_other]

@[simp] theorem State.advance_memRead (s : State) (p : Pass) (a : Nat) :
    (s.advance p).memRead a = s.memRead a := by
  simp [State.memRead]

@[simp] theorem State.advance_lane (s : State) (p : Pass) (c : Chan) : (s.advance p).lane c = s.lane c := by
  simp [State.lane]

theorem State.slide_memRead_eq (s : State) (p : Pass) (a : Nat) :
    (s.slide p).memRead a = (s.slideLanes p).memRead a := by
  rw [State.slide, State.advance_memRead]
  rfl

/-- What SLIDE leaves in each lane (R93, R98). -/
theorem State.slide_lane (s : State) (p : Pass) (c : Chan) : (s.slide p).lane c =
    slideLane (s.lane c) s.head.toNat s.tail.toNat (s.entering p c) := by
  rw [← State.slideLanes_lane, State.slide, State.advance_lane]
  rfl

/-- The output of channel `c` stands at its address after SLIDE (R93). -/
theorem State.slide_memRead_out (s : State) (p : Pass) (c : Chan) :
    (s.slide p).memRead (s.outAddr p c) = s.output c := by
  rw [State.slide_memRead_eq, State.slideLanes_memRead]
  cases c <;> simp [State.outAddr_ne _ _ _ _ (show Chan.r ≠ Chan.b by decide),
    State.outAddr_ne _ _ _ _ (show Chan.g ≠ Chan.b by decide), State.outAddr_ne _ _ _ _ (show Chan.r ≠ Chan.g by decide)]

/-- Every byte but the three outputs is left alone (20_memory.md R53). -/
theorem State.slide_memRead_other (s : State) (p : Pass) (a : Nat) (h : ∀ c, a ≠ s.outAddr p c) :
    (s.slide p).memRead a = s.memRead a := by
  rw [State.slide_memRead_eq, State.slideLanes_memRead, if_neg (h .b), if_neg (h .g), if_neg (h .r)]

@[simp] theorem State.slide_head (s : State) (p : Pass) : (s.slide p).head = nextNode s.latR.toNat s.head := by
  simp [State.slide]

@[simp] theorem State.slide_tail (s : State) (p : Pass) : (s.slide p).tail = nextNode s.latR.toNat s.tail := by
  simp [State.slide]

/-- `advance` inside a line (42_blur_command.md R114). -/
theorem State.advance_inside (s : State) (p : Pass) (h : s.pos.toNat + 1 < s.lineLength p) :
    s.advance p = { s with pos := s.pos + 1 } := if_pos h

/-- `advance` at the end of a line that is not the last (R114). -/
theorem State.advance_nextLine (s : State) (p : Pass) (h : ¬ s.pos.toNat + 1 < s.lineLength p)
    (hl : s.line.toNat + 1 < s.lineCount p) :
    s.advance p = { s with line := s.line + 1, sub := .seeding } := by
  unfold State.advance
  rw [if_neg h, if_pos hl]

/-- `advance` at the end of the row pass (R114). -/
theorem State.advance_row_last (s : State) (h : ¬ s.pos.toNat + 1 < s.lineLength .row)
    (hl : ¬ s.line.toNat + 1 < s.lineCount .row) : s.advance .row = s.startPass .colpass := by
  unfold State.advance
  rw [if_neg h, if_neg hl]

/-- `advance` at the end of the column pass (R114, R115). -/
theorem State.advance_col_last (s : State) (h : ¬ s.pos.toNat + 1 < s.lineLength .col)
    (hl : ¬ s.line.toNat + 1 < s.lineCount .col) : s.advance .col = s.complete := by
  unfold State.advance
  rw [if_neg h, if_neg hl]

/-- SLIDE is the three channels, the cursors and then `advance`. -/
theorem State.slide_eq (s : State) (p : Pass) : s.slide p =
    ({ s.slideLanes p with
      head := nextNode s.latR.toNat s.head, tail := nextNode s.latR.toNat s.tail }).advance p := rfl

/-- SLIDE inside a line. -/
theorem State.slide_inside (s : State) (p : Pass) (h : s.pos.toNat + 1 < s.lineLength p) :
    (s.slide p).phase = s.phase ∧ (s.slide p).result = s.result ∧ (s.slide p).line = s.line ∧
    (s.slide p).pos = s.pos + 1 ∧ (s.slide p).sub = s.sub := by
  rw [State.slide_eq, State.advance_inside]
  · simp [State.slideLanes]
  · cases p <;> simpa [State.slideLanes, State.lineLength] using h

/-- SLIDE at the end of a line that is not the last. -/
theorem State.slide_nextLine (s : State) (p : Pass) (h : ¬ s.pos.toNat + 1 < s.lineLength p)
    (hl : s.line.toNat + 1 < s.lineCount p) :
    (s.slide p).phase = s.phase ∧ (s.slide p).result = s.result ∧ (s.slide p).line = s.line + 1 ∧
    (s.slide p).pos = s.pos ∧ (s.slide p).sub = .seeding := by
  rw [State.slide_eq, State.advance_nextLine]
  · simp [State.slideLanes]
  · cases p <;> simpa [State.slideLanes, State.lineLength] using h
  · cases p <;> simpa [State.slideLanes, State.lineCount] using hl

/-- SLIDE at the end of the row pass. -/
theorem State.slide_row_last (s : State) (h : ¬ s.pos.toNat + 1 < s.lineLength .row)
    (hl : ¬ s.line.toNat + 1 < s.lineCount .row) :
    (s.slide .row).phase = .colpass ∧ (s.slide .row).result = s.result ∧ (s.slide .row).line = 0 ∧
    (s.slide .row).pos = 0 ∧ (s.slide .row).sub = .seeding := by
  rw [State.slide_eq, State.advance_row_last]
  · simp [State.slideLanes]
  · simpa [State.slideLanes, State.lineLength] using h
  · simpa [State.slideLanes, State.lineCount] using hl

/-- SLIDE at the end of the column pass (42_blur_command.md R115). -/
theorem State.slide_col_last (s : State) (h : ¬ s.pos.toNat + 1 < s.lineLength .col)
    (hl : ¬ s.line.toNat + 1 < s.lineCount .col) :
    (s.slide .col).phase = .done ∧ (s.slide .col).result = .ok ∧ (s.slide .col).line = s.line ∧
    (s.slide .col).pos = s.pos ∧ (s.slide .col).sub = s.sub := by
  rw [State.slide_eq, State.advance_col_last]
  · simp [State.slideLanes]
  · simpa [State.slideLanes, State.lineLength] using h
  · simpa [State.slideLanes, State.lineCount] using hl

/-! ### A turn of the ENGINE -/

/-- Everything a turn of the ENGINE can do when it answers a next state (42_blur_command.md R114). -/
theorem engineTurn_cases (s t : State) (h : engineTurn s = .next t) :
    ((s.resetIn = true ∨ s.phase.pass? = none) ∧ t = s) ∨
    ∃ p, s.resetIn = false ∧ s.phase.pass? = some p ∧
      ((s.sub = .seeding ∧ s.seedFault p = none ∧ t = s.seed p) ∨
        (s.sub = .sliding ∧ s.slideFault p = none ∧ t = s.slide p)) := by
  unfold engineTurn at h
  split at h
  · rename_i hr
    exact .inl ⟨.inl hr, by injection h with h; exact h.symm⟩
  · rename_i hr
    split at h
    · rename_i hp
      exact .inl ⟨.inr hp, by injection h with h; exact h.symm⟩
    · rename_i p hp
      refine .inr ⟨p, by simpa using hr, hp, ?_⟩
      split at h
      · rename_i hs
        unfold seedStep at h
        split at h
        · cases h
        · rename_i hf
          exact .inl ⟨hs, hf, by injection h with h; exact h.symm⟩
      · rename_i hs
        unfold slideStep at h
        split at h
        · cases h
        · rename_i hf
          exact .inr ⟨hs, hf, by injection h with h; exact h.symm⟩

/-- A turn with a pass running and SEED next. -/
theorem engineTurn_seed (s : State) (p : Pass) (hr : s.resetIn = false) (hp : s.phase.pass? = some p)
    (hs : s.sub = .seeding) (hf : s.seedFault p = none) : engineTurn s = .next (s.seed p) := by
  simp [engineTurn, hr, hp, hs, seedStep, hf]

/-- A turn with a pass running and SLIDE next. -/
theorem engineTurn_slide (s : State) (p : Pass) (hr : s.resetIn = false) (hp : s.phase.pass? = some p)
    (hs : s.sub = .sliding) (hf : s.slideFault p = none) : engineTurn s = .next (s.slide p) := by
  simp [engineTurn, hr, hp, hs, slideStep, hf]

end Sys2Proof.Machine
end

