-- ==== Sys2Proof/Laws/Bus.lean ====
section
/-! SUPPORT. What a step can do: the one list of effects every proof about `step` splits on, and which register an access
reaches. -/

namespace Sys2Proof.Machine

/-! ### Registers -/

theorem HostReg.offset_inj (r q : HostReg) (h : r.offset = q.offset) : r = q := by
  cases r <;> cases q <;> first | rfl | exact absurd h (by decide)

theorem HostReg.mem_all (r : HostReg) : r ∈ HostReg.all := by cases r <;> decide

/-- The eight accesses that reach a register (20_memory.md R51). -/
theorem State.regAt_eq_some (s : State) (addr bits : Nat) (r : HostReg) :
    s.regAt addr bits = some r ↔ bits = 32 ∧ addr = s.platform.regBase + r.offset := by
  unfold State.regAt
  constructor
  · intro h
    split at h
    · rename_i hb
      have := List.find?_some h
      exact ⟨hb, by simpa using (beq_iff_eq.mp this).symm⟩
    · cases h
  · rintro ⟨rfl, rfl⟩
    rw [if_pos rfl]
    cases h : HostReg.all.find? (fun q => s.platform.regBase + q.offset == s.platform.regBase + r.offset) with
    | none =>
      have := List.find?_eq_none.mp h r r.mem_all
      simp at this
    | some q =>
      have := List.find?_some h
      simp only [beq_iff_eq, Nat.add_left_cancel_iff] at this
      rw [HostReg.offset_inj q r this]

/-- Every other access reaches none. -/
theorem State.regAt_eq_none (s : State) (addr bits : Nat)
    (h : bits ≠ 32 ∨ ∀ r : HostReg, addr ≠ s.platform.regBase + r.offset) : s.regAt addr bits = none := by
  cases hr : s.regAt addr bits with
  | none => rfl
  | some r =>
    obtain ⟨h1, h2⟩ := (s.regAt_eq_some addr bits r).mp hr
    obtain h | h := h
    · exact absurd h1 h
    · exact absurd h2 (h r)

/-! ### Commands -/

/-- Everything a command can leave when it answers a next state. -/
inductive CommandEffect (s : State) : Instr → State → Prop where
  /-- Dropped: the block is busy (30_encoding.md R60). -/
  | dropped (i : Instr) (h : s.busy = true) : CommandEffect s i s
  /-- NOP (43_control_commands.md R130). -/
  | nop (h : s.busy = false) : CommandEffect s .nop s
  /-- ACK (R131). -/
  | ack (h : s.busy = false) : CommandEffect s .ack s.clearRecord
  /-- DIVC with an index of the table (40_division_table.md R87). -/
  | table (a : Nat) (h : s.busy = false) (ha : a ≤ 254) : CommandEffect s (.divc a) ((s.loadTable a).recordOk .idle)
  /-- DIVC with an index outside the table. -/
  | noEntry (a : Nat) (h : s.busy = false) (ha : 254 < a) : CommandEffect s (.divc a) (s.raise .invalidRadius)
  /-- BLUR with a bad radius (42_blur_command.md R111). -/
  | badRadius (h : s.busy = false) (hr : s.argR < 1 ∨ 254 < s.argR) : CommandEffect s .blur (s.raise .invalidRadius)
  /-- BLUR with a wrong length. -/
  | badLength (h : s.busy = false) (h1 : 1 ≤ s.argR) (h2 : s.argR ≤ 254) (hl : s.argW * s.argH * 4 ≠ s.argLen) :
      CommandEffect s .blur (s.raise .bufferSizeMismatch)
  /-- BLUR of an empty image (R119). -/
  | empty (h : s.busy = false) (h1 : 1 ≤ s.argR) (h2 : s.argR ≤ 254) (hl : s.argW * s.argH * 4 = s.argLen)
      (he : s.argW = 0 ∨ s.argH = 0) : CommandEffect s .blur (s.recordOk .done)
  /-- BLUR that starts (R111). -/
  | start (h : s.busy = false) (h1 : 1 ≤ s.argR) (h2 : s.argR ≤ 254) (hl : s.argW * s.argH * 4 = s.argLen)
      (hw : s.argW ≠ 0) (hh : s.argH ≠ 0) (hp : s.argLen ≤ s.platform.pixSize) : CommandEffect s .blur s.startBlur

theorem ifNotBusy_busy (s : State) (x : Out) (h : s.busy = true) : ifNotBusy s x = .next s := if_pos h

theorem ifNotBusy_idle (s : State) (x : Out) (h : s.busy = false) : ifNotBusy s x = x :=
  if_neg (by simp [h])

/-- A command that answers a next state has one of the effects above. -/
theorem exec_effect (i : Instr) (s t : State) (h : exec i s = .next t) : CommandEffect s i t := by
  cases hb : s.busy
  · cases i with
    | nop =>
      rw [exec, execNop, ifNotBusy_idle _ _ hb] at h
      cases h
      exact .nop hb
    | ack =>
      rw [exec, execAck, ifNotBusy_idle _ _ hb] at h
      cases h
      exact .ack hb
    | divc a =>
      rw [exec, execDivc, ifNotBusy_idle _ _ hb] at h
      split at h
      · cases h
        exact .noEntry a hb (by assumption)
      · cases h
        exact .table a hb (by omega)
    | blur =>
      rw [exec, execBlur, ifNotBusy_idle _ _ hb] at h
      split at h
      · cases h
        exact .badRadius hb (by assumption)
      · rename_i hr
        split at h
        · cases h
          exact .badLength hb (by omega) (by omega) (by assumption)
        · rename_i hl
          split at h
          · cases h
            exact .empty hb (by omega) (by omega) (by omega) (by assumption)
          · rename_i he
            split at h
            · cases h
            · cases h
              exact .start hb (by omega) (by omega) (by omega) (by omega) (by omega) (by omega)
  · have : exec i s = .next s := by
      cases i <;> simp only [exec, execNop, execAck, execDivc, execBlur] <;> exact ifNotBusy_busy _ _ hb
    rw [this] at h
    cases h
    exact .dropped i hb

/-! ### Steps -/

/-- Everything the head of the events can do to the block when it answers a next state. -/
inductive ActEffect (s : State) : Event → State → Prop where
  /-- A command word that decodes. -/
  | command (v : Word) (i : Instr) (t : State) (hr : s.resetIn = false) (hb : s.busy = false)
      (hd : decode v = .command i) (h : CommandEffect s i t) :
      ActEffect s (.write s.platform.regBase 32 v) t
  /-- An illegal command word. -/
  | illegal (v : Word) (hr : s.resetIn = false) (hb : s.busy = false) :
      ActEffect s (.write s.platform.regBase 32 v) (s.raise .illegalCommand)
  /-- A command word while busy. -/
  | lost (v : Word) (hr : s.resetIn = false) (hb : s.busy = true) : ActEffect s (.write s.platform.regBase 32 v) s
  /-- A write of another register. -/
  | store (r : HostReg) (v : Word) (hr : s.resetIn = false) (hne : r ≠ .cmd) :
      ActEffect s (.write (s.platform.regBase + r.offset) 32 v) (s.storeReg r v)
  /-- A read of a register, by RD or by WAIT. -/
  | read (e : Event) (r : HostReg) (hr : s.resetIn = false)
      (he : e = .read (s.platform.regBase + r.offset) 32 ∨ (e = .wait ∧ r = .status)) : ActEffect s e (hostRead r s)
  /-- A write of a PIX byte. -/
  | pixWrite (a : Nat) (b : Byte) (hr : s.resetIn = false) (ha : a < s.platform.pixSize) (hl : s.loan ≤ a) :
      ActEffect s (.pixWrite a b) (s.memWrite a b)
  /-- A read of a PIX byte. -/
  | pixRead (a : Nat) (hr : s.resetIn = false) (ha : a < s.platform.pixSize) (hl : s.loan ≤ a) :
      ActEffect s (.pixRead a) (s.reply (.pix (s.memRead a)))
  /-- A turn of the ENGINE. -/
  | engine (t : State) (h : engineTurn s = .next t) : ActEffect s .engine t
  /-- The reset input, asserted once more. -/
  | stillReset (hr : s.resetIn = true) : ActEffect s .resetAssert s
  /-- The reset input, asserted. -/
  | reset (hr : s.resetIn = false) : ActEffect s .resetAssert s.assertReset
  /-- The reset input, released. -/
  | release : ActEffect s .resetRelease s.releaseReset

theorem outOfReset_next (s t : State) (x : Out) (h : outOfReset s x = .next t) : s.resetIn = false ∧ x = .next t := by
  unfold outOfReset at h
  split at h
  · cases h
  · exact ⟨by simpa using ‹¬ s.resetIn = true›, h⟩

theorem onRegister_next (s t : State) (addr bits : Nat) (f : HostReg → Out) (h : onRegister s addr bits f = .next t) :
    ∃ r : HostReg, bits = 32 ∧ addr = s.platform.regBase + r.offset ∧ f r = .next t := by
  unfold onRegister at h
  split at h
  · rename_i r hr
    obtain ⟨h1, h2⟩ := (s.regAt_eq_some addr bits r).mp hr
    exact ⟨r, h1, h2, h⟩
  · cases h

theorem onPixByte_next (s t : State) (addr : Nat) (x : Out) (h : onPixByte s addr x = .next t) :
    addr < s.platform.pixSize ∧ s.loan ≤ addr ∧ x = .next t := by
  unfold onPixByte at h
  split at h
  · cases h
  · split at h
    · cases h
    · exact ⟨by omega, by omega, h⟩

/-- An event that answers a next state has one of the effects above. -/
theorem act_effect (e : Event) (s t : State) (h : act e s = .next t) : ActEffect s e t := by
  cases e with
  | write addr bits v =>
    obtain ⟨hr, h⟩ := outOfReset_next _ _ _ h
    obtain ⟨r, rfl, rfl, hx⟩ := onRegister_next _ _ _ _ _ h
    by_cases hc : r = .cmd
    · subst hc
      simp only [hostWrite, if_true, deliver] at hx
      split at hx
      · cases hx
        exact .lost v hr (by assumption)
      · rename_i hb
        split at hx
        · exact .command v _ t hr (by simpa using hb) (by assumption) (exec_effect _ _ _ hx)
        · cases hx
          exact .illegal v hr (by simpa using hb)
    · simp only [hostWrite, if_neg hc] at hx
      cases hx
      exact .store r v hr hc
  | read addr bits =>
    obtain ⟨hr, h⟩ := outOfReset_next _ _ _ h
    obtain ⟨r, rfl, rfl, hx⟩ := onRegister_next _ _ _ _ _ h
    cases hx
    exact .read _ r hr (.inl rfl)
  | pixWrite addr b =>
    obtain ⟨hr, h⟩ := outOfReset_next _ _ _ h
    obtain ⟨ha, hl, h⟩ := onPixByte_next _ _ _ _ h
    cases h
    exact .pixWrite addr b hr ha hl
  | pixRead addr =>
    obtain ⟨hr, h⟩ := outOfReset_next _ _ _ h
    obtain ⟨ha, hl, h⟩ := onPixByte_next _ _ _ _ h
    cases h
    exact .pixRead addr hr ha hl
  | wait =>
    obtain ⟨hr, h⟩ := outOfReset_next _ _ _ h
    cases h
    exact .read _ .status hr (.inr ⟨rfl, rfl⟩)
  | engine => exact .engine t h
  | resetAssert =>
    simp only [act] at h
    split at h
    · cases h
      exact .stillReset (by assumption)
    · cases h
      exact .reset (by simpa using ‹¬ s.resetIn = true›)
  | resetRelease =>
    cases h
    exact .release

/-- Everything a step can do: a turn of the ENGINE with the events left as they are, or the head of the events. -/
theorem step_effect (s t : State) (h : step s = .next t) :
    engineTurn s = .next t ∨
    ∃ e rest, s.events = e :: rest ∧ ActEffect { s with events := rest } e t := by
  unfold step turn at h
  split at h
  · exact .inl h
  · split at h
    · exact .inl h
    · exact .inr ⟨_, _, by assumption, act_effect _ _ _ h⟩
  · exact .inr ⟨_, _, by assumption, act_effect _ _ _ h⟩

/-- A step on an event that is not WAIT. -/
theorem step_event (s : State) (e : Event) (rest : List Event) (h : s.events = e :: rest) (hw : e ≠ .wait) :
    step s = act e { s with events := rest } := by
  cases e <;> first | exact absurd rfl hw | simp [step, turn, h]

/-! ### One event, computed -/

/-- A write of a register, out of reset. -/
theorem act_write (s : State) (r : HostReg) (v : Word) (h : s.resetIn = false) :
    act (.write (s.platform.regBase + r.offset) 32 v) s = hostWrite r v s := by
  simp [act, outOfReset, h, onRegister, (s.regAt_eq_some _ _ r).mpr ⟨rfl, rfl⟩]

/-- A read of a register, out of reset. -/
theorem act_read (s : State) (r : HostReg) (h : s.resetIn = false) :
    act (.read (s.platform.regBase + r.offset) 32) s = .next (hostRead r s) := by
  simp [act, outOfReset, h, onRegister, (s.regAt_eq_some _ _ r).mpr ⟨rfl, rfl⟩]

/-- A write that reaches no register (93_implementation_defined.md U6). -/
theorem act_write_none (s : State) (addr bits : Nat) (v : Word) (h : s.resetIn = false)
    (hn : s.regAt addr bits = none) : act (.write addr bits v) s = .refused .registerAccess := by
  simp [act, outOfReset, h, onRegister, hn]

/-- A read that reaches no register (93_implementation_defined.md U6). -/
theorem act_read_none (s : State) (addr bits : Nat) (h : s.resetIn = false) (hn : s.regAt addr bits = none) :
    act (.read addr bits) s = .refused .registerAccess := by
  simp [act, outOfReset, h, onRegister, hn]

/-- A HOST access of a PIX byte that exists and is not lent. -/
theorem onPixByte_free (s : State) (addr : Nat) (x : Out) (h1 : addr < s.platform.pixSize) (h2 : s.loan ≤ addr) :
    onPixByte s addr x = x := by
  unfold onPixByte
  rw [if_neg (by omega), if_neg (by omega)]

/-- A HOST access of a lent byte (93_implementation_defined.md U1). -/
theorem onPixByte_lent (s : State) (addr : Nat) (x : Out) (h1 : addr < s.platform.pixSize) (h2 : addr < s.loan) :
    onPixByte s addr x = .refused .pixLent := by
  unfold onPixByte
  rw [if_neg (by omega), if_pos h2]

/-- A HOST access of a byte that does not exist. -/
theorem onPixByte_absent (s : State) (addr : Nat) (x : Out) (h : s.platform.pixSize ≤ addr) :
    onPixByte s addr x = .fault .pixOutOfRange := if_pos h

theorem outOfReset_released (s : State) (x : Out) (h : s.resetIn = false) : outOfReset s x = x :=
  if_neg (by simp [h])

theorem outOfReset_asserted (s : State) (x : Out) (h : s.resetIn = true) :
    outOfReset s x = .refused .accessDuringReset := if_pos h

/-- A word written to CMD while not busy. -/
theorem deliver_idle (w : Word) (s : State) (h : s.busy = false) : deliver w s =
    match decode w with
    | .command i => exec i s
    | .illegal _ => .next (s.raise .illegalCommand) := if_neg (by simp [h])

/-- The host's placing of a command: the next step delivers its word (30_encoding.md R60). -/
theorem step_withFetchWord (s : State) (nbits w : Nat) (v : Word) (h : tableWord nbits w = some v) :
    step (s.withFetchWord nbits w) = deliver v { s with resetIn := false } := by
  have he : s.withFetchWord nbits w =
      { s with resetIn := false, events := wr s.platform .cmd v :: s.events } := by
    rw [State.withFetchWord, h]
  rw [he, step_event _ (wr s.platform .cmd v) s.events rfl (by simp [wr]), wr]
  exact act_write { s with resetIn := false } .cmd v rfl

end Sys2Proof.Machine
end

