-- ==== Sys2Proof/Laws/Encoding.lean ====
section
/-! SUPPORT. The three fields of a command word (30_encoding.md R61) and the word they make. -/

namespace Sys2Proof

/-- A word is its three fields. -/
theorem toNat_fields (w : Word) :
    w.toNat = (rsvField w).toNat * 65536 + (argField w).toNat * 256 + (opcField w).toNat := by
  have := w.isLt
  simp only [rsvField, argField, opcField, BitVec.extractLsb'_toNat, Nat.shiftRight_eq_div_pow]
  omega

theorem commandWord_toNat (opc arg : BitVec 8) : (commandWord opc arg).toNat = arg.toNat * 256 + opc.toNat := by
  have h1 := opc.isLt
  have h2 := arg.isLt
  rw [commandWord, BitVec.toNat_ofNat]
  omega

@[simp] theorem opcField_commandWord (opc arg : BitVec 8) : opcField (commandWord opc arg) = opc := by
  have h1 := opc.isLt
  apply BitVec.eq_of_toNat_eq
  rw [opcField, BitVec.extractLsb'_toNat, commandWord_toNat, Nat.shiftRight_eq_div_pow]
  omega

@[simp] theorem argField_commandWord (opc arg : BitVec 8) : argField (commandWord opc arg) = arg := by
  have h1 := opc.isLt
  have h2 := arg.isLt
  apply BitVec.eq_of_toNat_eq
  rw [argField, BitVec.extractLsb'_toNat, commandWord_toNat, Nat.shiftRight_eq_div_pow]
  omega

@[simp] theorem rsvField_commandWord (opc arg : BitVec 8) : rsvField (commandWord opc arg) = 0 := by
  have h1 := opc.isLt
  have h2 := arg.isLt
  apply BitVec.eq_of_toNat_eq
  rw [rsvField, BitVec.extractLsb'_toNat, commandWord_toNat, Nat.shiftRight_eq_div_pow]
  show _ = 0
  omega

/-- A word with RSV 0 is the word its other two fields make. -/
theorem commandWord_fields (w : Word) (h : rsvField w = 0) : commandWord (opcField w) (argField w) = w := by
  apply BitVec.eq_of_toNat_eq
  have hw := toNat_fields w
  have h0 : (rsvField w).toNat = 0 := by rw [h]; rfl
  rw [commandWord_toNat]
  omega

end Sys2Proof
end

