-- ==== Sys2Proof/Laws/Engine.lean ====
section
/-! SUPPORT. A running pass whose registers are in range takes its micro-step without a fault (60_exceptions.md R144): what
the proofs about runs of the ENGINE start from. -/

namespace Sys2Proof.Machine

theorem State.PassOk.lineLength_pos {s : State} {p : Pass} (h : s.PassOk p) : 1 ≤ s.lineLength p := by
  cases p
  · exact h.w
  · exact h.h

/-- SEED touches only what exists. -/
theorem State.PassOk.seedFault {s : State} {p : Pass} (h : s.PassOk p) : s.seedFault p = none := by
  have hn := h.lineLength_pos
  have ha := s.pixAddr_lt p _ _ .b h.line (clampc_lt s.latR.toNat _ hn)
  have he := h.exist
  have hr := h.r
  unfold State.seedFault State.sampleAddr
  rw [if_neg (by omega), if_neg (by omega), if_neg (by omega)]

/-- SLIDE touches only what exists. -/
theorem State.PassOk.slideFault {s : State} {p : Pass} (h : s.PassOk p) (hs : s.sub = .sliding) :
    s.slideFault p = none := by
  have hn := h.lineLength_pos
  have ha := s.pixAddr_lt p _ _ .b h.line (clampc_lt (s.pos.toNat + s.latR.toNat + 1 : Nat) _ hn)
  have ho := s.pixAddr_lt p _ _ .b h.line (h.sliding hs).pos
  have he := h.exist
  have hr := h.r
  have hh := (h.sliding hs).head
  have ht : s.tail.toNat < 2 * s.latR.toNat + 1 := by
    rw [(h.sliding hs).tail]
    exact Nat.mod_lt _ (by omega)
  unfold State.slideFault State.sampleAddr State.outAddr
  rw [if_neg (by omega), if_neg (by omega), if_neg (by omega)]

/-- The turn of a running pass with SEED next. -/
theorem State.PassOk.engineTurn_seed {s : State} {p : Pass} (h : s.PassOk p) (hp : s.phase.pass? = some p)
    (hs : s.sub = .seeding) : engineTurn s = .next (s.seed p) :=
  Machine.engineTurn_seed s p h.released hp hs h.seedFault

/-- The turn of a running pass with SLIDE next. -/
theorem State.PassOk.engineTurn_slide {s : State} {p : Pass} (h : s.PassOk p) (hp : s.phase.pass? = some p)
    (hs : s.sub = .sliding) : engineTurn s = .next (s.slide p) :=
  Machine.engineTurn_slide s p h.released hp hs (h.slideFault hs)

end Sys2Proof.Machine
end

