-- ==== Sys2Proof/Laws/PerInstr.lean ====
section
/-! SUPPORT. Statements made once per constructor of Instr. `CommandWords`: the word of a well-formed command has its
opcode in OPC, its operand in ARG, 0 in RSV (30_encoding.md R61 to R66), and decodes to the command. -/

namespace Sys2Proof.Laws.CommandWords

/-- The operation code of a command (30_encoding.md section 2). -/
def opcode : Instr → Nat
  | .nop => 0x00
  | .blur => 0x01
  | .divc _ => 0x02
  | .ack => 0x03

/-- The operand in ARG; 0 where the command has none (R61). -/
def operand : Instr → Nat
  | .nop => 0
  | .blur => 0
  | .divc a => a
  | .ack => 0

/-- The word of `i` has the fields the opcode map gives it, and `decode` reads `i` from it. -/
def Statement (i : Instr) : Prop :=
  WellFormed i = true →
    (opcField (encode i)).toNat = opcode i ∧ (argField (encode i)).toNat = operand i ∧ rsvField (encode i) = 0 ∧
    decode (encode i) = .command i

theorem nop : Statement .nop := fun _ => by decide

theorem blur : Statement .blur := fun _ => by decide

theorem divc (a : Nat) : Statement (.divc a) := fun h => by
  have ha : a < 256 := of_decide_eq_true h
  have harg : (BitVec.ofNat 8 a).toNat = a := by rw [BitVec.toNat_ofNat]; omega
  refine ⟨by simp [encode, opcode], ?_, by simp [encode], ?_⟩
  · simp only [encode, argField_commandWord, operand, harg]
  · simp [decode, encode, harg]

theorem ack : Statement .ack := fun _ => by decide

end Sys2Proof.Laws.CommandWords
end

