-- ==== Sys2Proof/Laws/Run.lean ====
section
/-! SUPPORT. The end of a run (70_reset_and_hazards.md R181): when it is reached, and what a step then does. -/

namespace Sys2Proof.Machine

/-- Dropping entries of other addresses changes no read. -/
theorem Pix.read_filter (m : Pix) (p : Nat → Bool) (a : Nat) (h : p a = true) :
    Pix.read (m.filter (fun cell => p cell.1)) a = Pix.read m a := by
  induction m with
  | nil => rfl
  | cons x m ih =>
    by_cases hx : p x.1 = true
    · simp [hx, Pix.read_cons, ih]
    · have : x.1 ≠ a := fun he => hx (he ▸ h)
      simp [hx, Pix.read_cons, ih, this]

/-- A part of a canonical memory is canonical. -/
theorem Pix.filter_wf (m : Pix) (p : Host.Cell → Bool) (h : m.wf) : Pix.wf (m.filter p) :=
  ⟨h.1.filter p, fun cell hc => h.2 cell (List.mem_of_mem_filter hc)⟩

theorem Event.isHost_eq_false (e : Event) :
    e.isHost = false ↔ e = .engine ∨ e = .resetAssert ∨ e = .resetRelease := by cases e <;> simp [Event.isHost]

/-- The run is over: no HOST statement is left and the block is not busy (R181). -/
theorem State.runOver_iff (s : State) : s.runOver = true ↔ s.busy = false ∧ ∀ e ∈ s.events, e.isHost = false := by
  simp [State.runOver]

/-- A turn of an ENGINE without a step (42_blur_command.md R114). -/
theorem engineTurn_idle (s : State) (h : s.busy = false) : engineTurn s = .next s := by
  have : s.phase.pass? = none := by simpa [State.busy] using h
  simp [engineTurn, this]

/-- With no event, a step is the ENGINE's turn (70_reset_and_hazards.md R179). -/
theorem step_silent (s : State) (h : s.events = []) : step s = engineTurn s := by simp [step, turn, h]

/-- A turn given to the ENGINE by the list of events. -/
theorem step_engine (s : State) (rest : List Event) (h : s.events = .engine :: rest) :
    step s = engineTurn { s with events := rest } := step_event s .engine rest h (by decide)

theorem run_over (n : Nat) (s : State) (h : s.runOver = true) : run n s = .next s := by
  cases n <;> simp [run, h]

theorem run_succ (n : Nat) (s t : State) (h : s.runOver = false) (hs : step s = .next t) : run (n + 1) s = run n t := by
  simp [run, h, hs]

end Sys2Proof.Machine
end

