-- ==== Sys2Proof/Laws/Table.lean ====
section
/-! SUPPORT. The DivisionTable (40_division_table.md R81, R82): what the shift and the multiplier of an entry satisfy. -/

namespace Sys2Proof.Machine

theorem divisor_pos (r : Nat) : 0 < divisor r := Nat.mul_pos (Nat.succ_pos r) (Nat.succ_pos r)

theorem divisor_le (r : Nat) (h : r ≤ 254) : divisor r ≤ 65025 := by
  have : divisor r ≤ 255 * 255 := Nat.mul_le_mul (by omega) (by omega)
  simpa using this

/-- `2^shift` is above `256 * d` ... -/
theorem lt_pow_tableShift (r : Nat) : 256 * divisor r < 2 ^ tableShift r := Nat.lt_log2_self

/-- ... and half of it is not. -/
theorem pow_tableShift_le (r : Nat) : 2 ^ tableShift r ≤ 512 * divisor r := by
  have h : 2 ^ (256 * divisor r).log2 ≤ 256 * divisor r :=
    Nat.log2_self_le (by have := divisor_pos r; omega)
  rw [tableShift, pow_succ]
  omega

theorem tableShift_le (r : Nat) (h : r ≤ 254) : tableShift r ≤ 24 := by
  have hd := divisor_le r h
  have hp := divisor_pos r
  have : (256 * divisor r).log2 < 24 := (Nat.log2_lt (by omega)).mpr (by omega)
  rw [tableShift]
  omega

/-- The excess `mul * d - 2^shift` is at least 0 ... -/
theorem pow_le_tableMul (r : Nat) : 2 ^ tableShift r ≤ tableMul r * divisor r := by
  have hp := divisor_pos r
  have h2 := Nat.two_pow_pos (tableShift r)
  have h := Nat.div_add_mod (2 ^ tableShift r + divisor r - 1) (divisor r)
  have hm := Nat.mod_lt (2 ^ tableShift r + divisor r - 1) hp
  have he : tableMul r * divisor r = divisor r * ((2 ^ tableShift r + divisor r - 1) / divisor r) :=
    Nat.mul_comm _ _
  omega

/-- ... and below `d`. -/
theorem tableMul_lt (r : Nat) : tableMul r * divisor r < 2 ^ tableShift r + divisor r := by
  have hp := divisor_pos r
  have h2 := Nat.two_pow_pos (tableShift r)
  have h : tableMul r * divisor r ≤ 2 ^ tableShift r + divisor r - 1 := Nat.div_mul_le_self _ _
  omega

theorem tableMul_le (r : Nat) : tableMul r ≤ 512 := by
  by_contra hc
  have h1 : 513 * divisor r ≤ tableMul r * divisor r := Nat.mul_le_mul_right _ (by omega)
  have h2 := tableMul_lt r
  have h3 := pow_tableShift_le r
  omega

/-- An entry fits the table's 32 and 8 bits. -/
theorem divtabMul_toNat (r : Nat) : (divtabMul r).toNat = tableMul r := by
  have := tableMul_le r
  rw [divtabMul, BitVec.toNat_ofNat]
  omega

theorem divtabShift_toNat (r : Nat) (h : r ≤ 254) : (divtabShift r).toNat = tableShift r := by
  have := tableShift_le r h
  rw [divtabShift, BitVec.toNat_ofNat]
  omega

end Sys2Proof.Machine
end

