-- ==== Sys2Proof/Laws/Window.lean ====
section
/-! SUPPORT. The window of the sweep: the two halves of the weighted total, how it changes when the window moves by one
(41_sweep_kernel.md R94), and what SEED and SLIDE do to one lane. -/

namespace Sys2Proof.Machine

/-! ### Weighted totals -/

/-- The weighted total splits into the trailing half, weights 1 .. r+1, and the leading half, weights r .. 1 (R91). -/
theorem weighted_split (r : Nat) (F : Nat → Nat) :
    ∑ j ∈ Finset.range (2 * r + 1), weight r ((j : Int) - r) * F j =
      ∑ j ∈ Finset.range (r + 1), (j + 1) * F j + ∑ j ∈ Finset.range r, (r - j) * F (r + 1 + j) := by
  rw [show 2 * r + 1 = (r + 1) + r by omega, Finset.sum_range_add]
  congr 1
  · refine Finset.sum_congr rfl fun j hj => ?_
    have hj := Finset.mem_range.mp hj
    have : weight r ((j : Int) - r) = j + 1 := by unfold weight; omega
    rw [this]
  · refine Finset.sum_congr rfl fun j hj => ?_
    have hj := Finset.mem_range.mp hj
    have : weight r (((r + 1 + j : Nat) : Int) - r) = r - j := by unfold weight; omega
    rw [this]

theorem trailing_shift (m : Nat) (F : Nat → Nat) :
    ∑ j ∈ Finset.range m, (j + 1) * F (j + 1) + ∑ j ∈ Finset.range m, F j =
      ∑ j ∈ Finset.range m, (j + 1) * F j + m * F m := by
  induction m with
  | zero => simp
  | succ m ih =>
    rw [Finset.sum_range_succ, Finset.sum_range_succ, Finset.sum_range_succ]
    linarith

theorem leading_shift (m a : Nat) (F : Nat → Nat) :
    ∑ j ∈ Finset.range m, (m - j) * F (a + 1 + j) + m * F a =
      ∑ j ∈ Finset.range m, (m - j) * F (a + j) + ∑ j ∈ Finset.range m, F (a + 1 + j) := by
  induction m generalizing a with
  | zero => simp
  | succ m ih =>
    have h := ih (a + 1)
    have e : ∀ b, ∑ j ∈ Finset.range (m + 1), (m + 1 - j) * F (b + j) =
        ∑ j ∈ Finset.range m, (m - j) * F (b + 1 + j) + (m + 1) * F b := fun b => by
      rw [Finset.sum_range_succ']
      congr 1
      refine Finset.sum_congr rfl fun j _ => ?_
      rw [show m + 1 - (j + 1) = m - j by omega, show b + (j + 1) = b + 1 + j by omega]
    have e2 : ∑ j ∈ Finset.range (m + 1), F (a + 1 + j) = ∑ j ∈ Finset.range m, F (a + 1 + 1 + j) + F (a + 1) := by
      rw [Finset.sum_range_succ']
      congr 1
      refine Finset.sum_congr rfl fun j _ => ?_
      rw [show a + 1 + (j + 1) = a + 1 + 1 + j by omega]
    rw [e, e, e2]
    linarith

/-- Moving the window by one (R94): the new total plus the old trailing half is the old total plus the new leading half,
the sample entering included. `F 0 .. F (2r)` is the old window, `F 1 .. F (2r+1)` the new one. -/
theorem weighted_slide (r : Nat) (F : Nat → Nat) :
    ∑ j ∈ Finset.range (2 * r + 1), weight r ((j : Int) - r) * F (j + 1) + ∑ j ∈ Finset.range (r + 1), F j =
      ∑ j ∈ Finset.range (2 * r + 1), weight r ((j : Int) - r) * F j +
        ∑ j ∈ Finset.range r, F (r + 1 + j) + F (2 * r + 1) := by
  rw [weighted_split r F, weighted_split r (fun j => F (j + 1))]
  have h1 := trailing_shift (r + 1) F
  have h2 := leading_shift r (r + 1) F
  have h3 : ∑ j ∈ Finset.range r, F (r + 1 + 1 + j) + F (r + 1) =
      ∑ j ∈ Finset.range r, F (r + 1 + j) + F (2 * r + 1) := by
    have a := Finset.sum_range_succ' (fun j => F (r + 1 + j)) r
    have b := Finset.sum_range_succ (fun j => F (r + 1 + j)) r
    rw [b] at a
    simp only [Nat.add_zero, show r + 1 + r = 2 * r + 1 by omega] at a
    rw [a]
    congr 1
    refine Finset.sum_congr rfl fun j _ => ?_
    rw [show r + 1 + (j + 1) = r + 1 + 1 + j by omega]
  have h4 : ∑ j ∈ Finset.range r, (r - j) * F (r + 1 + j + 1) =
      ∑ j ∈ Finset.range r, (r - j) * F (r + 1 + 1 + j) := by
    refine Finset.sum_congr rfl fun j _ => ?_
    rw [show r + 1 + j + 1 = r + 1 + 1 + j by omega]
  rw [h4]
  linarith

theorem trailing_slide (r : Nat) (F : Nat → Nat) :
    ∑ j ∈ Finset.range (r + 1), F (j + 1) + F 0 = ∑ j ∈ Finset.range (r + 1), F j + F (r + 1) := by
  rw [← Finset.sum_range_succ' F, Finset.sum_range_succ]

theorem leading_slide (r : Nat) (F : Nat → Nat) :
    ∑ j ∈ Finset.range r, F (r + 1 + j + 1) + F (r + 1) =
      ∑ j ∈ Finset.range r, F (r + 1 + j) + F (2 * r + 1) := by
  have a := Finset.sum_range_succ' (fun j => F (r + 1 + j)) r
  rw [Finset.sum_range_succ (fun j => F (r + 1 + j)) r] at a
  simp only [Nat.add_zero, show r + 1 + r = 2 * r + 1 by omega] at a
  exact a.symm

/-- The trailing half's weight at least 1: its plain sum is at most the weighted total (10_state.md R23). -/
theorem trailing_le_weighted (r : Nat) (F : Nat → Nat) :
    ∑ j ∈ Finset.range (r + 1), F j ≤ ∑ j ∈ Finset.range (2 * r + 1), weight r ((j : Int) - r) * F j := by
  rw [weighted_split]
  refine le_trans (Finset.sum_le_sum fun j _ => ?_) (Nat.le_add_right _ _)
  exact Nat.le_mul_of_pos_left _ (Nat.succ_pos j)

theorem sumUpTo_eq (n : Nat) (f : Nat → Nat) : sumUpTo n f = ∑ j ∈ Finset.range n, f (j + 1) := by
  unfold sumUpTo
  induction n with
  | zero => rfl
  | succ n ih => rw [List.range_succ, List.map_append, List.sum_append, ih, Finset.sum_range_succ]; simp

/-- A sum of samples is at most 255 times their number (10_state.md R24, R25). -/
theorem sum_bytes_le (n : Nat) (f : Nat → Byte) : ∑ j ∈ Finset.range n, (f j).toNat ≤ 255 * n := by
  have h := Finset.sum_le_card_nsmul (Finset.range n) (fun j => (f j).toNat) 255
    (fun j _ => by have := (f j).isLt; omega)
  rw [Finset.card_range, smul_eq_mul, Nat.mul_comm] at h
  exact h

/-! ### The ring of a lane -/

theorem Lane.node_setNode (l : Lane) (i j : Nat) (v : Byte) (hi : i < 509) :
    (l.setNode i v).node j = if j = i then v else l.node j := by
  unfold Lane.node Lane.setNode
  by_cases h : j = i
  · subst h
    simp [hi]
  · simp [h, Ne.symm h]

theorem seedLane_node (r : Nat) (src : Nat → Byte) (old : Lane) (j : Nat) (hj : j < 509) :
    (seedLane r src old).node j =
      if j ≤ r then src 0 else if j ≤ 2 * r then src (j - r) else old.node j := by
  simp [Lane.node, seedLane, hj]

theorem seedLane_node_above (r : Nat) (src : Nat → Byte) (old : Lane) (j : Nat) (hj : 2 * r < j) :
    (seedLane r src old).node j = old.node j := by
  by_cases h : j < 509
  · rw [seedLane_node _ _ _ _ h, if_neg (by omega), if_neg (by omega)]
  · simp [Lane.node, seedLane, h]

theorem slideLane_node (l : Lane) (head tail : Nat) (v : Byte) (j : Nat) (hh : head < 509) :
    (slideLane l head tail v).node j = if j = head then v else l.node j :=
  l.node_setNode head j v hh

/-! ### SLIDE on one lane -/

/-- One window offset further on the ring: the node after the last one is HEAD's (10_state.md R27). -/
theorem ring_succ (r head j : Nat) (hh : head < 2 * r + 1) (hj : j ≤ 2 * r) :
    ((head + 1) % (2 * r + 1) + j) % (2 * r + 1) =
      if j = 2 * r then head else (head + (j + 1)) % (2 * r + 1) := by
  rw [Nat.mod_add_mod]
  split
  · rename_i h
    subst h
    rw [show head + 1 + 2 * r = head + (2 * r + 1) by omega, Nat.add_mod_right, Nat.mod_eq_of_lt hh]
  · rw [show head + 1 + j = head + (j + 1) by omega]

theorem ring_ne_head (r head j : Nat) (hh : head < 2 * r + 1) (h1 : 1 ≤ j) (h2 : j ≤ 2 * r) :
    (head + j) % (2 * r + 1) ≠ head := by
  intro h
  by_cases hc : head + j < 2 * r + 1
  · rw [Nat.mod_eq_of_lt hc] at h
    omega
  · rw [Nat.mod_eq_sub_mod (by omega), Nat.mod_eq_of_lt (by omega)] at h
    omega

/-- The samples of the window before a SLIDE, the one entering last. -/
def Lane.stream (l : Lane) (r head : Nat) (v : Byte) (j : Nat) : Byte :=
  if j = 2 * r + 1 then v else l.node ((head + j) % (2 * r + 1))

theorem Lane.stream_old (l : Lane) (r head : Nat) (v : Byte) (j : Nat) (hj : j ≤ 2 * r) :
    l.stream r head v j = l.node ((head + j) % (2 * r + 1)) := if_neg (by omega)

theorem Lane.stream_last (l : Lane) (r head : Nat) (v : Byte) : l.stream r head v (2 * r + 1) = v := if_pos rfl

theorem Lane.stream_head (l : Lane) (r head : Nat) (v : Byte) (hh : head < 2 * r + 1) :
    l.stream r head v 0 = l.node head := by
  rw [l.stream_old r head v 0 (by omega), Nat.add_zero, Nat.mod_eq_of_lt hh]

theorem Lane.stream_tail (l : Lane) (r head : Nat) (v : Byte) (h1 : 1 ≤ r) :
    l.stream r head v (r + 1) = l.node ((head + r + 1) % (2 * r + 1)) := by
  rw [l.stream_old r head v (r + 1) (by omega), Nat.add_assoc]

/-- The totals of a consistent lane are those of the stream's first `2r+1` samples. -/
theorem Lane.Consistent.stream {l : Lane} {r head : Nat} (hc : l.Consistent r head) (v : Byte) :
    ∑ j ∈ Finset.range (2 * r + 1), weight r ((j : Int) - r) * (l.stream r head v j).toNat = l.sum.toNat ∧
    ∑ j ∈ Finset.range (r + 1), (l.stream r head v j).toNat = l.outsum.toNat ∧
    ∑ j ∈ Finset.range r, (l.stream r head v (r + 1 + j)).toNat = l.insum.toNat := by
  rw [hc.sum, hc.outsum, hc.insum]
  refine ⟨Finset.sum_congr rfl fun j hj => ?_, Finset.sum_congr rfl fun j hj => ?_,
    Finset.sum_congr rfl fun j hj => ?_⟩ <;>
  · have := Finset.mem_range.mp hj
    rw [l.stream_old _ _ _ _ (by omega)]

/-- After SLIDE the ring, read from the new HEAD, is the stream moved by one. -/
theorem slideLane_stream (l : Lane) (r head tail : Nat) (v : Byte) (j : Nat) (hr : r ≤ 254)
    (hh : head < 2 * r + 1) (hj : j ≤ 2 * r) :
    (slideLane l head tail v).node (((head + 1) % (2 * r + 1) + j) % (2 * r + 1)) = l.stream r head v (j + 1) := by
  rw [slideLane_node _ _ _ _ _ (by omega), ring_succ r head j hh hj]
  by_cases h : j = 2 * r
  · rw [if_pos h, if_pos rfl, h, l.stream_last]
  · rw [if_neg h, if_neg (ring_ne_head r head (j + 1) hh (by omega) (by omega)), l.stream_old _ _ _ _ (by omega)]

/-- A weighted total of samples fits 24 bits (10_state.md R23). -/
theorem weighted_bytes_le (r : Nat) (hr : r ≤ 254) (F : Nat → Byte) :
    ∑ j ∈ Finset.range (2 * r + 1), weight r ((j : Int) - r) * (F j).toNat ≤ 16581375 := by
  have hw : ∑ j ∈ Finset.range (2 * r + 1), weight r ((j : Int) - r) * (F j).toNat ≤
      ∑ j ∈ Finset.range (2 * r + 1), weight r ((j : Int) - r) * 255 :=
    Finset.sum_le_sum fun j _ => Nat.mul_le_mul_left _ (by have := (F j).isLt; omega)
  rw [weighted_split r (fun _ => 255), ← Finset.sum_mul, ← Finset.sum_mul] at hw
  have g1 : (∑ j ∈ Finset.range (r + 1), (j + 1)) * 2 = (r + 1) * (r + 2) := by
    have := Finset.sum_range_id_mul_two (r + 2)
    rw [Finset.sum_range_succ'] at this
    simpa [Nat.mul_comm] using this
  have g2 : (∑ j ∈ Finset.range r, (r - j)) * 2 = r * (r + 1) := by
    have e := Finset.sum_range_reflect (fun j => j + 1) r
    have e' : ∑ j ∈ Finset.range r, (r - j) = ∑ j ∈ Finset.range r, (r - 1 - j + 1) :=
      Finset.sum_congr rfl fun j hj => by have := Finset.mem_range.mp hj; omega
    have := Finset.sum_range_id_mul_two (r + 1)
    rw [Finset.sum_range_succ'] at this
    rw [e', e]
    simpa [Nat.mul_comm] using this
  have g3 : (r + 1) * (r + 2) ≤ 255 * 256 := Nat.mul_le_mul (by omega) (by omega)
  have g4 : r * (r + 1) ≤ 254 * 255 := Nat.mul_le_mul (by omega) (by omega)
  omega

/-- HEAD's sample is in OUTSUM, TAIL's in INSUM, and OUTSUM in SUM: no subtraction of SLIDE goes below 0 (10_state.md R23
to R25). -/
theorem Lane.Consistent.inside {l : Lane} {r head : Nat} (hc : l.Consistent r head) (h1 : 1 ≤ r)
    (hh : head < 2 * r + 1) :
    (l.node head).toNat ≤ l.outsum.toNat ∧ (l.node ((head + r + 1) % (2 * r + 1))).toNat ≤ l.insum.toNat ∧
    l.outsum.toNat ≤ l.sum.toNat := by
  refine ⟨?_, ?_, ?_⟩
  · rw [hc.outsum]
    have := Finset.single_le_sum (f := fun j => (l.node ((head + j) % (2 * r + 1))).toNat)
      (fun _ _ => Nat.zero_le _) (Finset.mem_range.mpr (Nat.succ_pos r))
    simpa [Nat.mod_eq_of_lt hh] using this
  · rw [hc.insum]
    have := Finset.single_le_sum (f := fun j => (l.node ((head + (r + 1 + j)) % (2 * r + 1))).toNat)
      (fun _ _ => Nat.zero_le _) (Finset.mem_range.mpr (show 0 < r by omega))
    simpa [Nat.add_assoc] using this
  · rw [hc.outsum, hc.sum]
    exact trailing_le_weighted r (fun j => (l.node ((head + j) % (2 * r + 1))).toNat)

/-- SLIDE on the accumulators, as integers: nothing wraps (10_state.md R23 to R25). -/
theorem slideLane_totals (l : Lane) (r head tail : Nat) (v : Byte) (h1 : 1 ≤ r) (hr : r ≤ 254)
    (hh : head < 2 * r + 1) (ht : tail = (head + r + 1) % (2 * r + 1)) (hc : l.Consistent r head) :
    (slideLane l head tail v).outsum.toNat + (l.node head).toNat = l.outsum.toNat + (l.node tail).toNat ∧
    (slideLane l head tail v).insum.toNat + (l.node tail).toNat = l.insum.toNat + v.toNat ∧
    (slideLane l head tail v).sum.toNat + l.outsum.toNat = l.sum.toNat + (l.insum.toNat + v.toNat) := by
  have hne : tail ≠ head := by rw [ht, Nat.add_assoc]; exact ring_ne_head r head (r + 1) hh (by omega) (by omega)
  have htail : (l.setNode head v).node tail = l.node tail := by
    rw [Lane.node_setNode _ _ _ _ (by omega), if_neg hne]
  obtain ⟨e3, e1, e2⟩ := hc.stream v
  obtain ⟨f0, f1, hsum⟩ := hc.inside h1 hh
  rw [← ht] at f1
  have hv := v.isLt
  have hn0 := (l.node head).isLt
  have hn1 := (l.node tail).isLt
  have bin := sum_bytes_le r (fun j => l.stream r head v (r + 1 + j))
  have bout := sum_bytes_le (r + 1) (fun j => l.stream r head v j)
  have bnew := sum_bytes_le (r + 1) (fun j => l.stream r head v (j + 1))
  have hout := trailing_slide r (fun j => (l.stream r head v j).toNat)
  have hslide := weighted_slide r (fun j => (l.stream r head v j).toNat)
  have hw := weighted_bytes_le r hr (fun j => l.stream r head v (j + 1))
  simp only [e1, e2, e3, l.stream_last, l.stream_head r head v hh, l.stream_tail r head v h1, ← ht]
    at hslide hout bin bout
  have hl := l.sum.isLt
  refine ⟨?_, ?_, ?_⟩ <;>
  · simp only [slideLane, htail, BitVec.toNat_add, BitVec.toNat_sub, BitVec.toNat_setWidth]
    omega

/-- SLIDE keeps the accumulators equal to the totals of the ring (10_state.md R29, 41_sweep_kernel.md R94). -/
theorem slideLane_consistent (l : Lane) (r head tail : Nat) (v : Byte) (h1 : 1 ≤ r) (hr : r ≤ 254)
    (hh : head < 2 * r + 1) (ht : tail = (head + r + 1) % (2 * r + 1)) (hc : l.Consistent r head) :
    (slideLane l head tail v).Consistent r ((head + 1) % (2 * r + 1)) := by
  obtain ⟨ho, hi, hs⟩ := slideLane_totals l r head tail v h1 hr hh ht hc
  obtain ⟨e3, e1, e2⟩ := hc.stream v
  have stream : ∀ j, j < 2 * r + 1 → (slideLane l head tail v).node
      (((head + 1) % (2 * r + 1) + j) % (2 * r + 1)) = l.stream r head v (j + 1) := fun j hj =>
    slideLane_stream l r head tail v j hr hh (by omega)
  refine ⟨?_, ?_, ?_⟩
  · have h := weighted_slide r (fun j => (l.stream r head v j).toNat)
    simp only [e1, e2, e3, l.stream_last] at h
    rw [Finset.sum_congr rfl fun j hj => by rw [stream j (Finset.mem_range.mp hj)]]
    omega
  · have h := trailing_slide r (fun j => (l.stream r head v j).toNat)
    simp only [e1, l.stream_head r head v hh, l.stream_tail r head v h1, ← ht] at h
    rw [Finset.sum_congr rfl fun j hj => by rw [stream j (by have := Finset.mem_range.mp hj; omega)]]
    omega
  · have h := leading_slide r (fun j => (l.stream r head v j).toNat)
    simp only [e2, l.stream_last, l.stream_tail r head v h1, ← ht] at h
    rw [Finset.sum_congr rfl fun j hj => by
      rw [stream (r + 1 + j) (by have := Finset.mem_range.mp hj; omega)]]
    omega

/-! ### SEED on one lane -/

/-- The ring after SEED, read from HEAD = 0 on: `r + 1` copies of the sample at position 0, then the next `r`. -/
theorem seedLane_window (r : Nat) (src : Nat → Byte) (old : Lane) (j : Nat) (hr : r ≤ 254) (hj : j ≤ 2 * r) :
    (seedLane r src old).node ((0 + j) % (2 * r + 1)) = src (j - r) := by
  rw [Nat.zero_add, Nat.mod_eq_of_lt (by omega), seedLane_node _ _ _ _ (by omega)]
  by_cases h : j ≤ r
  · rw [if_pos h, show j - r = 0 by omega]
  · rw [if_neg h, if_pos hj]

/-- The totals SEED writes are exact (10_state.md R23 to R25) and those of the ring (41_sweep_kernel.md R92, R94). -/
theorem seedLane_consistent (r : Nat) (src : Nat → Byte) (old : Lane) (hr : r ≤ 254) :
    (seedLane r src old).Consistent r 0 := by
  have hb := sum_bytes_le r (fun j => src (j + 1))
  have hw := weighted_bytes_le r hr (fun j => src (j - r))
  have g1 : (∑ j ∈ Finset.range (r + 1), (j + 1)) = (r + 1) * (r + 2) / 2 := by
    have := Finset.sum_range_id_mul_two (r + 2)
    rw [Finset.sum_range_succ'] at this
    have h : (∑ j ∈ Finset.range (r + 1), (j + 1)) * 2 = (r + 1) * (r + 2) := by
      simpa [Nat.mul_comm] using this
    omega
  have hsplit : ∑ j ∈ Finset.range (2 * r + 1), weight r ((j : Int) - r) * (src (j - r)).toNat =
      (r + 1) * (r + 2) / 2 * (src 0).toNat + ∑ j ∈ Finset.range r, (r + 1 - (j + 1)) * (src (j + 1)).toNat := by
    rw [weighted_split, ← g1, Finset.sum_mul]
    congr 1
    · refine Finset.sum_congr rfl fun j hj => ?_
      rw [show j - r = 0 by have := Finset.mem_range.mp hj; omega]
    · refine Finset.sum_congr rfl fun j _ => ?_
      rw [show r + 1 + j - r = j + 1 by omega, show r + 1 - (j + 1) = r - j by omega]
  have hv := (src 0).isLt
  have h0 : (r + 1) * (src 0).toNat ≤ 255 * 255 := Nat.mul_le_mul (by omega) (by omega)
  refine ⟨?_, ?_, ?_⟩
  · rw [Finset.sum_congr rfl fun j hj => by
      rw [seedLane_window r src old j hr (by have := Finset.mem_range.mp hj; omega)]]
    rw [hsplit] at hw ⊢
    simp only [seedLane, sumUpTo_eq, BitVec.toNat_ofNat]
    exact Nat.mod_eq_of_lt (by omega)
  · rw [Finset.sum_congr rfl fun j hj => by
      rw [seedLane_window r src old j hr (by have := Finset.mem_range.mp hj; omega),
        show j - r = 0 by have := Finset.mem_range.mp hj; omega]]
    simp only [seedLane, BitVec.toNat_ofNat, Finset.sum_const, Finset.card_range, smul_eq_mul]
    exact Nat.mod_eq_of_lt (by omega)
  · rw [Finset.sum_congr rfl fun j hj => by
      rw [seedLane_window r src old (r + 1 + j) hr (by have := Finset.mem_range.mp hj; omega),
        show r + 1 + j - r = j + 1 by omega]]
    simp only [seedLane, sumUpTo_eq, BitVec.toNat_ofNat]
    exact Nat.mod_eq_of_lt (by omega)

end Sys2Proof.Machine
end

