-- ==== Sys2Proof/Tests/Slice0.lean ====
section
/-! SUPPORT. Tests, each a named theorem whose expected result comes from spec/: words written out from the encodings, rows of
the DivisionTable, one step or one micro-step at a time; then, for every statement with hypotheses, a witness that meets
them. -/

namespace Sys2Proof.Tests

open Sys2Proof.Machine

/-! ### Well-formedness -/

/-- R61: ARG has 8 bits, so 256 is no operand of DIVC. -/
theorem test_divc_256_is_ill_formed : WellFormed (.divc 256) = false := by decide

theorem test_divc_255_is_well_formed : WellFormed (.divc 255) = true := by decide

/-! ### Decoding, on words written out from R61 to R66 (T4) -/

theorem test_decode_nop : decode 0x00000000#32 = .command .nop := by decide
theorem test_decode_blur : decode 0x00000001#32 = .command .blur := by decide
theorem test_decode_divc_127 : decode 0x00007F02#32 = .command (.divc 127) := by decide
theorem test_decode_divc_255 : decode 0x0000FF02#32 = .command (.divc 255) := by decide
theorem test_decode_ack : decode 0x00000003#32 = .command .ack := by decide
theorem test_decode_unassigned : decode 0x00000004#32 = .illegal .opcode := by decide
theorem test_decode_nop_with_arg : decode 0x00000100#32 = .illegal .argField := by decide
theorem test_decode_divc_with_rsv : decode 0x00010002#32 = .illegal .reservedField := by decide
theorem test_decode_blur_with_rsv : decode 0x80000001#32 = .illegal .reservedField := by decide

/-- The rows of the opcode table, numbered as it numbers them. -/
theorem test_decodeTableWord : decodeTableWord 32 0 = some .nop ∧ decodeTableWord 32 1 = some .blur ∧
    decodeTableWord 32 0x7F02 = some (.divc 127) ∧ decodeTableWord 32 3 = some .ack ∧
    decodeTableWord 32 4 = none := by decide

/-! ### The DivisionTable (T1: the corners, the least multiplier and the largest shift) -/

theorem test_table : tableMul 0 = 512 ∧ tableShift 0 = 9 ∧ tableMul 2 = 456 ∧ tableShift 2 = 12 ∧
    tableMul 180 = 257 ∧ tableShift 180 = 23 ∧ tableMul 254 = 259 ∧ tableShift 254 = 24 := by decide

/-- T2: where the divide is the floor plus one, and where it is not. -/
theorem test_fpdiv : fpdiv 511 2 = 56 ∧ fpdiv 512 2 = 57 ∧ fpdiv 64776 254 = 0 ∧ fpdiv 64777 254 = 1 ∧
    fpdiv 16581375 254 = 255 := by decide

/-! ### Commands, one step each -/

/-- What a HOST read of STATUS, DT_MUL and DT_SHIFT would return after the step, if there is a next state. -/
def record : Out → Option (Word × Word × Word)
  | .next t => some (t.readReg .status, t.readReg .dtMul, t.readReg .dtShift)
  | .fault _ => none
  | .refused _ => none

/-- A block that is not busy, with the record of a failed command and some table result. -/
def failed : State :=
  { State.reset with result := .fail, errcode := .illegalCommand, dtMul := 512, dtShift := 9 }

/-- A block that is not busy, with BLUR's four operands. -/
def loaded (w h r len : Word) : State := { State.reset with width := w, height := h, radius := r, bufLen := len }

/-- The command of a row of the opcode table runs as the next step. -/
theorem test_placed_divc_runs : record (step (State.reset.withFetchWord 32 0x0202)) = some (4, 456, 12) := by decide

/-- R130: STATUS keeps the record of the error. -/
theorem test_nop : record (step (failed.withFetchWord 32 0)) = some (0x38, 512, 9) := by decide

/-- R131: STATUS reads 0, DT_MUL and DT_SHIFT stay. -/
theorem test_ack : record (step (failed.withFetchWord 32 3)) = some (0, 512, 9) := by decide

/-- T3: the index outside the table. -/
theorem test_divc_255 : record (exec (.divc 255) failed) = some (0x18, 512, 9) := by decide

/-- T14: the largest radius is accepted, and the block is in ROWPASS. -/
theorem test_blur_accepted : record (exec .blur (loaded 5 5 254 100)) = some (1, 0, 0) := by decide

/-- T14, T15: a product of 2^34 is not 0, the radius is checked first, and an empty image is done at once. -/
theorem test_blur_checks : record (exec .blur (loaded 65536 65536 1 0)) = some (0x28, 0, 0) ∧
    record (exec .blur (loaded 0 0 0 0)) = some (0x18, 0, 0) ∧
    record (exec .blur (loaded 5 5 0xFFFFFFFF 100)) = some (0x18, 0, 0) ∧
    record (exec .blur (loaded 0 7 3 0)) = some (7, 0, 0) := by decide

/-! ### Micro-steps, on one lane (T10: the line 0, 255 with r = 1) -/

/-- The lane in one line: SUM, INSUM, OUTSUM and the first three nodes. -/
def lane3 (l : Lane) : Nat × Nat × Nat × List Nat :=
  (l.sum.toNat, l.insum.toNat, l.outsum.toNat, [(l.node 0).toNat, (l.node 1).toNat, (l.node 2).toNat])

theorem test_seed : lane3 (seedLane 1 (fun i => if i = 0 then 0 else 255) Lane.zero) = (255, 255, 0, [0, 0, 255]) := by
  simp only [lane3, seedLane_node _ _ _ _ (show 0 < 509 by decide), seedLane_node _ _ _ _ (show 1 < 509 by decide),
    seedLane_node _ _ _ _ (show 2 < 509 by decide)]
  decide

/-- SLIDE q = 0 of T10: RING [0, 0, 255], SUM 255, INSUM 255, OUTSUM 0, HEAD 0, TAIL 2, and 255 enters. -/
theorem test_slide (l : Lane) (hs : l.sum = 255) (hi : l.insum = 255) (ho : l.outsum = 0) (h0 : l.node 0 = 0)
    (h1 : l.node 1 = 0) (h2 : l.node 2 = 255) : lane3 (slideLane l 0 2 255) = (765, 255, 255, [255, 0, 255]) := by
  have hn := fun j => slideLane_node l 0 2 255 j (by decide)
  have ht : (l.setNode 0 255).node 2 = 255 := by rw [Lane.node_setNode _ _ _ _ (by decide), if_neg (by decide), h2]
  simp only [lane3, hn, h1, h2]
  simp only [slideLane, ht, hs, hi, ho, h0]
  decide

/-! ### Witnesses: states of a running blur of a 2 by 3 image with r = 1, every R, G and B byte 5 -/

/-- A lane whose ring holds 5 in every node, and its totals 4 * 5, 5 and 2 * 5. -/
def flatLane : Lane where
  sum := 20
  insum := 5
  outsum := 10
  ring := Vector.replicate 509 5

theorem flatLane_node (j : Nat) (h : j < 509) : flatLane.node j = 5 := by simp [flatLane, Lane.node, h]

/-- The bytes of the image. -/
def fives : Pix := [0, 1, 2, 4, 5, 6, 8, 9, 10, 12, 13, 14, 16, 17, 18, 20, 21, 22].map (fun a => (a, 5))

/-- The blur in the given phase, at the given line and position. -/
def running (ph : Phase) (line pos : Word) (sub : Sub) : State :=
  { State.reset with
    phase := ph, line := line, pos := pos, sub := sub, latW := 2, latH := 3, latR := 1, latMul := divtabMul 1,
    latSh := divtabShift 1, lanes := ⟨flatLane, flatLane, flatLane⟩, head := 0, tail := 2, pix := fives, loan := 24 }

theorem running_lane (ph : Phase) (line pos : Word) (sub : Sub) (c : Chan) :
    (running ph line pos sub).lane c = flatLane := by cases c <;> rfl

theorem flatLane_consistent : flatLane.Consistent 1 0 := by
  refine ⟨?_, ?_, ?_⟩ <;> simp [Finset.sum_range_succ, flatLane_node, weight] <;> rfl

theorem running_passOk (p : Pass) (line pos : Word) (sub : Sub) (ph : Phase)
    (hl : line.toNat < (running ph line pos sub).lineCount p)
    (hq : pos.toNat < (running ph line pos sub).lineLength p) : (running ph line pos sub).PassOk p where
  w := show 1 ≤ (2#32).toNat by decide
  h := show 1 ≤ (3#32).toNat by decide
  size := show 4 * (2#32).toNat * (3#32).toNat < 2 ^ 32 by decide
  exist := show 4 * (2#32).toNat * (3#32).toNat ≤ 2 ^ 32 by decide
  lent := show 4 * (2#32).toNat * (3#32).toNat ≤ 24 by decide
  r := show 1 ≤ (1#8).toNat ∧ (1#8).toNat ≤ 254 by decide
  mul := rfl
  sh := rfl
  line := hl
  released := rfl
  sliding _ := ⟨hq, show (0#9).toNat < 2 * (1#8).toNat + 1 by decide, rfl, fun c => by
    rw [running_lane]
    exact flatLane_consistent⟩

/-- The window invariant holds of it at the start of the first row and of the first column. -/
theorem running_lineInv (p : Pass) (ph : Phase) (hp : ph.pass? = some p) :
    (running ph 0 0 .sliding).LineInv p (fun _ _ => 5) where
  running := hp
  sliding := rfl
  pix c j hj := by
    rw [if_neg (by exact Nat.not_lt_zero j)]
    cases p
    · have : j < 2 := hj
      interval_cases j <;> cases c <;> rfl
    · have : j < 3 := hj
      interval_cases j <;> cases c <;> rfl
  ring c j hj := by
    have h := flatLane_node
      (((running ph 0 0 .sliding).head.toNat + j) % (2 * (running ph 0 0 .sliding).latR.toNat + 1))
      (lt_trans (Nat.mod_lt _ (show 0 < 3 by decide)) (show 3 < 509 by decide))
    rw [running_lane, h]
    rfl
  sum c := by
    rw [running_lane]
    rfl
  outsum c := by
    rw [running_lane]
    rfl
  insum c := by
    rw [running_lane]
    rfl
  head := rfl
  tail := rfl

theorem running_engineOk (ph : Phase) (line pos : Word) (sub : Sub)
    (h : ∀ p, ph.pass? = some p → line.toNat < (running ph line pos sub).lineCount p ∧
      pos.toNat < (running ph line pos sub).lineLength p) : (running ph line pos sub).EngineOk := fun p hp =>
  running_passOk p line pos sub ph (h p hp).1 (h p hp).2

/-! ### Witnesses: one for the hypotheses of each statement that has some, at the ends of the ranges -/

/-- `s` with one event to come. -/
def next (s : State) (e : Event) : State := { s with events := [e] }

/-- `s` with the reset input asserted and one event to come. -/
def held (e : Event) : State := { State.reset with resetIn := true, events := [e] }

/-- A blur whose first row is next. -/
abbrev rowStart : State := running .rowpass 0 0 .seeding

theorem witness_DecodeOfEncode : WellFormed (.divc 0) = true ∧ WellFormed (.divc 255) = true := by decide

theorem witness_EncodeOfDecode : decode 0x0000FF02 = .command (.divc 255) ∧ decode 0x00000000 = .command .nop := by decide

theorem witness_IllegalWordsAndTheirEffect :
    (∃ why, decode 0x00010002 = .illegal why) ∧ State.reset.busy = false ∧ rowStart.busy = true :=
  ⟨⟨_, test_decode_divc_with_rsv⟩, rfl, rfl⟩

theorem witness_DivcWords : State.reset.busy = false ∧
    (∃ t, deliver (BitVec.ofNat 32 (0x00000002 + 254 * 0x100)) State.reset = .next t) ∧
    ∃ t, deliver (BitVec.ofNat 32 (0x00000002 + 0 * 0x100)) State.reset = .next t := ⟨rfl, ⟨_, rfl⟩, _, rfl⟩

theorem witness_StepRunsTheDecodedCommand :
    (next State.reset (.write 0 32 3)).events = .write (next State.reset (.write 0 32 3)).platform.regBase 32 3 :: [] ∧
    (next State.reset (.write 0 32 3)).resetIn = false ∧ (next State.reset (.write 0 32 3)).busy = false ∧
    decode 3 = .command .ack := ⟨rfl, rfl, rfl, rfl⟩

theorem witness_StepRunsTheDecodedCommand_busy :
    (next rowStart (.write 0 32 4)).events = .write (next rowStart (.write 0 32 4)).platform.regBase 32 4 :: [] ∧
    (next rowStart (.write 0 32 4)).resetIn = false ∧ (next rowStart (.write 0 32 4)).busy = true := ⟨rfl, rfl, rfl⟩

theorem witness_CommandsWhileBusyAreLost : rowStart.busy = true := rfl

theorem witness_AckClearsTheRecord : failed.busy = false ∧ rowStart.busy = true := ⟨rfl, rfl⟩

theorem witness_DivcReturnsTheEntry : failed.busy = false ∧ 0 ≤ 254 ∧ 254 ≤ 254 := ⟨rfl, by decide, by decide⟩

theorem witness_DivcOutsideTheTable : failed.busy = false ∧ 254 < 255 := ⟨rfl, by decide⟩

/-- What makes an image with radius `r` acceptable. -/
abbrev Acceptable (s : State) : Prop :=
  s.busy = false ∧ 1 ≤ s.radius.toInt ∧ s.radius.toInt ≤ 254 ∧ s.width.toNat * s.height.toNat * 4 = s.bufLen.toNat ∧
    s.width.toNat ≠ 0 ∧ s.height.toNat ≠ 0

/-- The least radius, and the largest image (T14). -/
theorem witness_BlurStartsTheRowPass :
    (Acceptable (loaded 5 5 1 100) ∧ (loaded 5 5 1 100).bufLen.toNat ≤ (loaded 5 5 1 100).platform.pixSize) ∧
    Acceptable (loaded 0x3FFFFFFF 1 254 0xFFFFFFFC) ∧
    (loaded 0x3FFFFFFF 1 254 0xFFFFFFFC).bufLen.toNat ≤ (loaded 0x3FFFFFFF 1 254 0xFFFFFFFC).platform.pixSize := by
  decide

theorem witness_BlurOfAnEmptyImage :
    (loaded 0 7 1 0).busy = false ∧ 1 ≤ (loaded 0 7 1 0).radius.toInt ∧ (loaded 0 7 1 0).radius.toInt ≤ 254 ∧
    (loaded 0 7 1 0).width.toNat = 0 ∧ (loaded 0 7 1 0).bufLen.toNat = 0 ∧
    (loaded 7 0 254 4).busy = false ∧ 1 ≤ (loaded 7 0 254 4).radius.toInt ∧ (loaded 7 0 254 4).radius.toInt ≤ 254 ∧
    (loaded 7 0 254 4).height.toNat = 0 ∧ (loaded 7 0 254 4).bufLen.toNat ≠ 0 ∧
    (loaded 0 0 0 0).busy = false ∧ (loaded 0 0 0 0).width.toNat = 0 ∧ (loaded 0 0 0 0).radius.toInt < 1 := by decide

theorem witness_InvalidRadiusExactlyOutsideTheRange :
    (loaded 5 5 0 100).busy = false ∧ (loaded 5 5 0 100).radius.toInt < 1 ∧
    (loaded 5 5 255 100).busy = false ∧ 254 < (loaded 5 5 255 100).radius.toInt ∧
    (loaded 5 5 254 100).busy = false ∧ record (exec .blur (loaded 5 5 254 100)) ≠ none ∧
    WellFormed (.divc 255) = true ∧ record (exec (.divc 255) failed) ≠ none := by decide

theorem witness_BufferSizeMismatchExactly :
    (loaded 5 5 1 99).busy = false ∧ 1 ≤ (loaded 5 5 1 99).radius.toInt ∧ (loaded 5 5 1 99).radius.toInt ≤ 254 ∧
    (loaded 5 5 1 99).width.toNat * (loaded 5 5 1 99).height.toNat * 4 ≠ (loaded 5 5 1 99).bufLen.toNat ∧
    (loaded 5 5 254 100).busy = false ∧ record (exec .blur (loaded 5 5 254 100)) ≠ none := by decide

/-- The operands of T14's largest image on a machine with one byte too few. -/
def tooSmall : State :=
  { loaded 0x3FFFFFFF 1 1 0xFFFFFFFC with platform := { Platform.nominal with pixSize := 0xFFFFFFFB } }

theorem witness_BlurBeyondTheMemoryIsRefused : Acceptable tooSmall ∧ tooSmall.platform.pixSize < tooSmall.bufLen.toNat := by
  decide

theorem witness_ErrorPriority :
    rowStart.busy = true ∧ (loaded 5 5 0 7).busy = false ∧ (∃ why, decode 0x00000101 = .illegal why) ∧
    decode 0x00000001 = .command .blur ∧ (loaded 5 5 0 7).radius.toInt < 1 ∧
    1 ≤ (loaded 5 5 1 7).radius.toInt ∧ (loaded 5 5 1 7).radius.toInt ≤ 254 ∧
    (loaded 5 5 1 7).width.toNat * (loaded 5 5 1 7).height.toNat * 4 ≠ (loaded 5 5 1 7).bufLen.toNat ∧
    record (deliver 0x00000101 (loaded 5 5 0 7)) = some (0x38, 0, 0) ∧
    record (deliver 0x00000001 (loaded 5 5 0 7)) = some (0x18, 0, 0) :=
  ⟨rfl, rfl, ⟨.argField, rfl⟩, rfl, by decide, by decide, by decide, by decide, by decide, by decide⟩

theorem witness_ErrorRecordIsReplaced : State.reset.busy = false ∧ decode 0x00000003 ≠ .command .nop ∧
    decode 0x00000004 ≠ .command .nop := by decide

/-- The first and the last of the eight registers, a wrong width, and the first address after the block. -/
theorem witness_AccessesOfTheRegisterBlock :
    State.reset.resetIn = false ∧ 0 = State.reset.platform.regBase + HostReg.cmd.offset ∧
    0x1C = State.reset.platform.regBase + HostReg.dtShift.offset ∧ (8 ≠ 32) ∧
    ∀ r : HostReg, 0x20 ≠ State.reset.platform.regBase + r.offset :=
  ⟨rfl, rfl, rfl, by decide, fun r => by cases r <;> decide⟩

/-- The last byte that exists and the first that does not, the last byte lent and the first that is not. -/
theorem witness_HostPixAccesses :
    rowStart.resetIn = false ∧ (next rowStart (.pixWrite 24 1)).events = .pixWrite 24 1 :: [] ∧
    (next rowStart (.pixRead 24)).events = .pixRead 24 :: [] ∧
    (24 < rowStart.platform.pixSize ∧ rowStart.loan ≤ 24) ∧ (23 < rowStart.platform.pixSize ∧ 23 < rowStart.loan) ∧
    (0xFFFFFFFF < rowStart.platform.pixSize ∧ rowStart.loan ≤ 0xFFFFFFFF) ∧ rowStart.platform.pixSize ≤ 0x100000000 := by
  decide

theorem witness_AssertingReset : (next rowStart .resetAssert).events = .resetAssert :: [] ∧
    (next rowStart .resetAssert).resetIn = false ∧ (next rowStart .resetAssert).busy = true ∧
    (next failed .resetAssert).events = .resetAssert :: [] ∧ (next failed .resetAssert).resetIn = false ∧
    (next failed .resetAssert).busy = false := ⟨rfl, rfl, rfl, rfl, rfl, rfl⟩

theorem witness_WhileResetIsAsserted : (held .wait).resetIn = true ∧ (held .wait).events = .wait :: [] ∧
    (held .resetRelease).resetIn = true ∧ (held .resetRelease).events = .resetRelease :: [] ∧
    (held (.read 4 32)).resetIn = true ∧ (held (.read 4 32)).events = .read 4 32 :: [] := ⟨rfl, rfl, rfl, rfl, rfl, rfl⟩

theorem witness_SeedBuildsTheWindow :
    (rowStart.phase.pass? = some .row ∧ rowStart.PassOk .row ∧ rowStart.sub = .seeding) ∧
    (running .colpass 1 0 .seeding).phase.pass? = some .col ∧ (running .colpass 1 0 .seeding).PassOk .col ∧
    (running .colpass 1 0 .seeding).sub = .seeding :=
  ⟨⟨rfl, running_passOk _ _ _ _ _ (by decide) (by decide), rfl⟩, rfl,
    running_passOk _ _ _ _ _ (by decide) (by decide), rfl⟩

/-- The first position of the first row and the last position of the last column. -/
theorem witness_SlideMovesTheWindow :
    ((running .rowpass 0 0 .sliding).phase.pass? = some .row ∧ (running .rowpass 0 0 .sliding).PassOk .row ∧
      (running .rowpass 0 0 .sliding).sub = .sliding) ∧
    (running .colpass 1 2 .sliding).phase.pass? = some .col ∧ (running .colpass 1 2 .sliding).PassOk .col ∧
    (running .colpass 1 2 .sliding).sub = .sliding :=
  ⟨⟨rfl, running_passOk _ _ _ _ _ (by decide) (by decide), rfl⟩, rfl,
    running_passOk _ _ _ _ _ (by decide) (by decide), rfl⟩

/-- A block at rest; then before a line, inside one, at its end, and at the end of each pass. -/
theorem witness_SequencerAdvances :
    (State.reset.resetIn = false ∧ State.reset.busy = false) ∧
    ∀ x ∈ [(Phase.rowpass, Pass.row, (0 : Word), (0 : Word), Sub.seeding), (.rowpass, .row, 0, 0, .sliding),
        (.rowpass, .row, 0, 1, .sliding), (.rowpass, .row, 2, 1, .sliding), (.colpass, .col, 1, 2, .sliding)],
      let s := running x.1 x.2.2.1 x.2.2.2.1 x.2.2.2.2
      s.resetIn = false ∧ s.phase.pass? = some x.2.1 ∧ s.PassOk x.2.1 := by
  refine ⟨⟨rfl, rfl⟩, ?_⟩
  simp only [List.forall_mem_cons, List.not_mem_nil, false_imp_iff, implies_true, and_true]
  refine ⟨⟨rfl, rfl, ?_⟩, ⟨rfl, rfl, ?_⟩, ⟨rfl, rfl, ?_⟩, ⟨rfl, rfl, ?_⟩, ⟨rfl, rfl, ?_⟩⟩ <;>
    exact running_passOk _ _ _ _ _ (by decide) (by decide)

theorem rowStart_engineOk : rowStart.EngineOk := running_engineOk _ _ _ _ (fun p hp => by
  cases p
  · decide
  · cases hp)

theorem witness_EngineNeverFails : rowStart.EngineOk ∧ rowStart.busy = true := ⟨rowStart_engineOk, rfl⟩

theorem witness_EngineAddressesAreInsideTheBuffer :
    (running .rowpass 2 1 .sliding).PassOk .row ∧ (running .rowpass 2 1 .sliding).sub = .sliding ∧
    (running .colpass 1 2 .sliding).PassOk .col ∧ (running .colpass 1 2 .sliding).sub = .sliding :=
  ⟨running_passOk _ _ _ _ _ (by decide) (by decide), rfl, running_passOk _ _ _ _ _ (by decide) (by decide), rfl⟩

theorem witness_ScanlinesAreDisjoint : pixAddr 2 .row 7 1 .b = pixAddr 2 .row 7 1 .b ∧ 1 < 2 ∧
    pixAddr 2 .col 1 7 .r = pixAddr 2 .col 1 7 .r := by decide

theorem witness_AccumulatorBounds :
    (running .colpass 1 2 .sliding).phase.pass? = some .col ∧ (running .colpass 1 2 .sliding).PassOk .col ∧
    (running .colpass 1 2 .sliding).sub = .sliding := witness_SlideMovesTheWindow.2

theorem witness_ProductAndOutputFit : 254 ≤ 254 ∧ 16581375 ≤ 255 * ((254 + 1) * (254 + 1)) := by decide

theorem witness_WindowInvariantOfALine :
    (rowStart.phase.pass? = some .row ∧ rowStart.PassOk .row ∧ rowStart.sub = .seeding) ∧
    (running .rowpass 0 0 .sliding).PassOk .row ∧ (running .rowpass 0 0 .sliding).LineInv .row (fun _ _ => 5) ∧
    (running .rowpass 0 0 .sliding).pos.toNat + 1 < (running .rowpass 0 0 .sliding).lineLength .row :=
  ⟨witness_SeedBuildsTheWindow.1, running_passOk _ _ _ _ _ (by decide) (by decide), running_lineInv _ _ rfl, by decide⟩

theorem witness_WindowInvariantOfALine_col :
    (running .colpass 0 0 .sliding).PassOk .col ∧ (running .colpass 0 0 .sliding).LineInv .col (fun _ _ => 5) ∧
    (running .colpass 0 0 .sliding).pos.toNat + 1 < (running .colpass 0 0 .sliding).lineLength .col :=
  ⟨running_passOk _ _ _ _ _ (by decide) (by decide), running_lineInv _ _ rfl, by decide⟩

theorem witness_ScanlineHoldsTheReferenceResult :
    rowStart.phase.pass? = some .row ∧ rowStart.PassOk .row ∧ rowStart.sub = .seeding := witness_SeedBuildsTheWindow.1

theorem witness_RowPassSweepsEveryRow :
    rowStart.phase = .rowpass ∧ rowStart.PassOk .row ∧ rowStart.sub = .seeding ∧ rowStart.line = 0 :=
  ⟨rfl, running_passOk _ _ _ _ _ (by decide) (by decide), rfl, rfl⟩

theorem witness_ColPassSweepsEveryColumn :
    (running .colpass 0 0 .seeding).phase = .colpass ∧ (running .colpass 0 0 .seeding).PassOk .col ∧
    (running .colpass 0 0 .seeding).sub = .seeding ∧ (running .colpass 0 0 .seeding).line = 0 ∧
    (running .colpass 0 0 .seeding).errcode = .none :=
  ⟨rfl, running_passOk _ _ _ _ _ (by decide) (by decide), rfl, rfl, rfl⟩

theorem witness_AcceptedBlurLeavesTheBlurredImage :
    (loaded 5 4 254 80).busy = false ∧ (loaded 5 4 254 80).resetIn = false ∧ 5 = (loaded 5 4 254 80).width.toNat ∧
    4 = (loaded 5 4 254 80).height.toNat ∧ ((254 : Nat) : Int) = (loaded 5 4 254 80).radius.toInt ∧
    5 * 4 * 4 = (loaded 5 4 254 80).bufLen.toNat ∧
    (loaded 5 4 254 80).bufLen.toNat ≤ (loaded 5 4 254 80).platform.pixSize := by decide

/-- The same blur with other bytes in the G lane, seen from the R lane. -/
def otherGreen : State := { rowStart with pix := Pix.write rowStart.pix 1 77 }

theorem witness_LanesAreIndependent :
    rowStart.EngineOk ∧ otherGreen.EngineOk ∧ rowStart.phase = otherGreen.phase ∧ SamePosition rowStart otherGreen ∧
    SameLatched rowStart otherGreen ∧ rowStart.head = otherGreen.head ∧ rowStart.tail = otherGreen.tail ∧
    rowStart.lane .r = otherGreen.lane .r ∧ (∀ a, a % 4 = Chan.r.idx → rowStart.memRead a = otherGreen.memRead a) ∧
    (∃ t, engineTurn rowStart = .next t) ∧ ∃ t, engineTurn otherGreen = .next t := by
  have h : otherGreen.PassOk .row := ⟨by decide, by decide, by decide, by decide, by decide, by decide, rfl, rfl,
    by decide, rfl, fun h => (nomatch h)⟩
  refine ⟨rowStart_engineOk, fun p hp => ?_, rfl, ⟨rfl, rfl, rfl⟩, ⟨rfl, rfl, rfl, rfl, rfl⟩, rfl, rfl, rfl,
    fun a ha => show Pix.read fives a = Pix.read (Pix.write fives 1 77) a from
      (Pix.read_write_other _ _ _ _ (by rintro rfl; exact absurd ha (by decide))).symm,
    ⟨_, (running_passOk .row 0 0 .seeding .rowpass (by decide) (by decide)).engineTurn_seed rfl rfl⟩,
    _, h.engineTurn_seed rfl rfl⟩
  cases p
  · exact h
  · cases hp

theorem witness_TableEntryBounds : 0 ≤ 254 ∧ 254 ≤ 254 ∧ 1 ≤ 1 := by decide

theorem witness_DivideIsExactOnMultiples : 254 ≤ 254 ∧ 255 ≤ 255 := by decide

theorem witness_DivideIsFloorOrOneMore : 254 ≤ 254 ∧ 16581374 ≤ 255 * ((254 + 1) * (254 + 1)) ∧ 16581374 ≤ 16581375 := by
  decide

/-- The line 0, 255 with r = 1 at its last position, whose window holds 0 and 255. -/
theorem witness_OutputStaysWithinItsWindow : 1 ≤ 1 ∧ 1 ≤ 254 ∧ 1 < 2 ∧
    ∀ k : Int, -((1 : Nat) : Int) ≤ k → k ≤ ((1 : Nat) : Int) →
      0 ≤ refSample (fun i => if i = 0 then 0 else 255) 2 ((1 : Nat) + k) ∧
      refSample (fun i => if i = 0 then 0 else 255) 2 ((1 : Nat) + k) ≤ 255 :=
  ⟨by decide, by decide, by decide, fun _ _ _ => ⟨Nat.zero_le _, Nat.le_of_lt_succ (BitVec.isLt _)⟩⟩

theorem witness_SweepIsMonotone : 1 ≤ 254 ∧ 254 ≤ 254 ∧ 0 < 2 ∧
    ∀ j, j < 2 → ((fun _ => 7 : Nat → Byte) j).toNat ≤ ((fun i => if i = 0 then 7 else 255 : Nat → Byte) j).toNat := by
  decide

theorem witness_SweepCommutesWithReversal : 1 ≤ 1 ∧ 1 ≤ 254 ∧ 1 < 2 := by decide

theorem witness_StepKeepsStatusRelations : failed.StatusOk ∧ ∃ t, step (next failed (.write 0 32 1)) = .next t :=
  ⟨⟨by decide, by decide, by decide⟩, _, rfl⟩

theorem witness_StepKeepsEngineRanges : rowStart.EngineOk ∧ ∃ t, step rowStart = .next t :=
  ⟨rowStart_engineOk, _, (running_passOk .row 0 0 .seeding .rowpass (by decide) (by decide)).engineTurn_seed rfl rfl⟩

theorem witness_StepKeepsMemoryForm : (next rowStart (.pixWrite 24 1)).MemOk ∧
    ∃ t, step (next rowStart (.pixWrite 24 1)) = .next t := ⟨⟨by decide, by decide⟩, _, rfl⟩

theorem witness_OnlyTheHostChangesAlpha : (∃ t, step rowStart = .next t) ∧
    (∀ addr b rest, rowStart.events ≠ .pixWrite addr b :: rest) ∧ 3 % 4 = 3 :=
  ⟨witness_StepKeepsEngineRanges.2, fun _ _ _ h => (nomatch h), rfl⟩

theorem witness_PixFootprint : (failed.busy = false ∧ (∃ t, step failed = .next t) ∧
      ∀ addr b rest, failed.events ≠ .pixWrite addr b :: rest) ∧
    rowStart.EngineOk ∧ (∃ t, engineTurn rowStart = .next t) ∧ 4 * rowStart.latW.toNat * rowStart.latH.toNat ≤ 24 :=
  ⟨⟨rfl, ⟨_, rfl⟩, fun _ _ _ h => (nomatch h)⟩, rowStart_engineOk, witness_StepKeepsEngineRanges.2, by decide⟩

/-- A DIVC 254 from reset, and reset itself, change the table result. -/
theorem witness_OnlyDivcChangesTheTableResult :
    (∃ t, step (next State.reset (.write 0 32 0xFE02)) = .next t ∧ ¬ SameTable (next State.reset (.write 0 32 0xFE02)) t) ∧
    ∃ t, step (next failed .resetAssert) = .next t ∧ ¬ SameTable (next failed .resetAssert) t :=
  ⟨⟨_, rfl, fun h => absurd h.dtShift (by decide)⟩, _, rfl, fun h => absurd h.dtShift (by decide)⟩

/-- An accepted BLUR changes the latched parameters. -/
theorem witness_OnlyBlurChangesTheLatchedParameters :
    ∃ t, step (next (loaded 5 5 1 100) (.write 0 32 1)) = .next t ∧
      ¬ SameLatched (next (loaded 5 5 1 100) (.write 0 32 1)) t :=
  ⟨_, rfl, fun h => absurd h.latW (by decide)⟩

theorem witness_WaitReadsStatusWhenNotBusy : (next rowStart .wait).events = .wait :: [] ∧
    (next rowStart .wait).resetIn = false ∧ (next rowStart .wait).busy = true ∧ (next failed .wait).events = .wait :: [] ∧
    (next failed .wait).resetIn = false ∧ (next failed .wait).busy = false := ⟨rfl, rfl, rfl, rfl, rfl, rfl⟩

/-- A silent HOST, a turn given to the ENGINE, a run that is over, and two that are not (R181). -/
theorem witness_WaitReadsStatusWhenNotBusy_silent : rowStart.events = [] ∧ rowStart.resetIn = false ∧
    (next rowStart .engine).events = .engine :: [] ∧ (next failed .engine).runOver = true ∧
    (∀ e ∈ (next failed .engine).events, e = .engine) ∧ rowStart.runOver = false ∧
    (next failed (.read 4 32)).runOver = false ∧ ∃ t, step (next failed (.read 4 32)) = .next t :=
  ⟨rfl, rfl, rfl, rfl, by decide, rfl, rfl, _, rfl⟩

/-- R181: a blur that is done but not waited for. Its alpha bytes and the bytes after the buffer may be claimed. -/
theorem test_endState_of_a_blur_not_waited_for :
    let e := (running .done 1 2 .sliding).endState
    e.reg .status = 3 ∧ e.pixByte 0 = none ∧ e.pixByte 3 = some 0 ∧ e.pixByte 23 = some 0 ∧ e.pixByte 22 = none ∧
    e.pixByte 24 = some 0 := by decide

end Sys2Proof.Tests
end

section
/-! The STATUS word and the state after reset (10_state.md R12, R13, R31): O22, O27, O52. -/

namespace Sys2Proof.Machine

/-- The word of STATUS as a number: nothing carries from one field into the next (10_state.md R12). -/
theorem State.statusWord_toNat (s : State) : s.statusWord.toNat =
    s.errcode.code.toNat * 16 + s.result.code.toNat * 4 + s.phase.code.toNat := by
  have he := s.errcode.code.isLt
  have hr := s.result.code.isLt
  have hp := s.phase.code.isLt
  rw [State.statusWord, BitVec.toNat_ofNat]
  omega

/-- A field of the STATUS word holds the code that its digits spell. -/
theorem State.statusWord_field (s : State) (start len : Nat) (code : BitVec len)
    (h : (s.errcode.code.toNat * 16 + s.result.code.toNat * 4 + s.phase.code.toNat) / 2 ^ start % 2 ^ len = code.toNat) :
    s.statusWord.extractLsb' start len = code := by
  apply BitVec.eq_of_toNat_eq
  rw [BitVec.extractLsb'_toNat, State.statusWord_toNat, Nat.shiftRight_eq_div_pow, h]

theorem Result.code_ne_three (r : Result) : r.code ≠ 3 := by cases r <;> decide

theorem ErrCode.code_le_three (e : ErrCode) : e.code.toNat ≤ 3 := by cases e <;> decide

/-- Settles O22: the word is a number in base 4 and 16 whose digits are the codes, and a field reads one digit. -/
theorem statusFields : Obligations.StatusFields := by
  refine ⟨by decide, fun s => ?_⟩
  have he := s.errcode.code.isLt
  have hr := s.result.code.isLt
  have hp := s.phase.code.isLt
  have habove : (0 : BitVec 24).toNat = 0 := rfl
  exact ⟨rfl, s.statusWord_field 0 2 _ (by omega), s.statusWord_field 2 2 _ (by omega),
    s.statusWord_field 4 4 _ (by omega), s.statusWord_field 8 24 _ (by omega), s.result.code_ne_three,
    s.errcode.code_le_three⟩

/-- Settles O27: the registers have the spec's reset values (10_state.md R31). -/
theorem resetValues : Obligations.ResetValues :=
  ⟨rfl, rfl, rfl, fun r => by cases r <;> rfl, rfl⟩

/-- While no pass runs, nothing is asked of the ENGINE. -/
theorem State.engineOk_of_not_busy {s : State} (h : s.busy = false) : s.EngineOk := fun p hp => by
  simp [State.busy, hp] at h

/-- An empty record agrees with every PHASE but DONE (10_state.md R13). -/
theorem State.statusOk_of_none {s : State} (hr : s.result = .none) (he : s.errcode = .none) (hp : s.phase ≠ .done) :
    s.StatusOk := ⟨fun _ => ⟨hr, he⟩, fun h => absurd h hp, by simp [hr, he]⟩

/-- The record of a success agrees with every PHASE that is not busy (10_state.md R13). -/
theorem State.statusOk_of_ok {s : State} (hr : s.result = .ok) (he : s.errcode = .none) (hb : s.busy = false) :
    s.StatusOk := ⟨by simp [hb], fun _ => ⟨hr, he⟩, by simp [hr, he]⟩

/-- The record of an error agrees with IDLE (10_state.md R13, 60_exceptions.md R146). -/
theorem State.statusOk_raise (s : State) {e : ErrCode} (he : e ≠ .none) : (s.raise e).StatusOk :=
  ⟨fun h => absurd h (by simp [State.busy, Phase.pass?]), fun h => absurd h (by simp), by simp [he]⟩

/-- Settles O52: after reset the record is empty, no pass runs and PIX lists nothing. -/
theorem resetMeetsTheInvariants : Obligations.ResetMeetsTheInvariants :=
  ⟨⟨State.statusOk_of_none rfl rfl (by decide), State.engineOk_of_not_busy rfl, ⟨⟨.nil, nofun⟩, nofun⟩⟩, by decide⟩

end Sys2Proof.Machine
end

section
/-! Bounds of the accumulators and of the product of the output (10_state.md R23 to R26): O36, O37. -/

namespace Sys2Proof.Machine

theorem sum_succ_range (n : Nat) : (∑ j ∈ Finset.range n, (j + 1)) * 2 = n * (n + 1) := by
  have h := Finset.sum_range_id_mul_two (n + 1)
  rw [Finset.sum_range_succ'] at h
  simpa [Nat.mul_comm] using h

/-- The weights of the window sum to the divisor (41_sweep_kernel.md R91). -/
theorem weight_sum (r : Nat) : ∑ j ∈ Finset.range (2 * r + 1), weight r ((j : Int) - r) = (r + 1) * (r + 1) := by
  have hsplit := weighted_split r (fun _ => 1)
  have hlead : ∑ j ∈ Finset.range r, (r - j) = ∑ j ∈ Finset.range r, (j + 1) := by
    rw [← Finset.sum_range_reflect]
    exact Finset.sum_congr rfl fun j hj => by have := Finset.mem_range.mp hj; omega
  have hg := sum_succ_range r
  simp only [mul_one, hlead] at hsplit
  rw [hsplit, Finset.sum_range_succ]
  linarith

/-- A weighted total of samples is at most 255 times the divisor (10_state.md R23). -/
theorem weighted_bytes_le_divisor (r : Nat) (F : Nat → Byte) :
    ∑ j ∈ Finset.range (2 * r + 1), weight r ((j : Int) - r) * (F j).toNat ≤ 255 * ((r + 1) * (r + 1)) := by
  rw [← weight_sum r, Nat.mul_comm 255, Finset.sum_mul]
  exact Finset.sum_le_sum fun j _ => Nat.mul_le_mul_left _ (Nat.le_of_lt_succ (F j).isLt)

/-- Settles O36: each accumulator is a sum over the ring, of samples that are at most 255. -/
theorem accumulatorBounds : Obligations.AccumulatorBounds := by
  intro s p c _ hpass hsub
  obtain ⟨_, hhead, htail, hlanes⟩ := hpass.sliding hsub
  have hc := hlanes c
  obtain ⟨hheadIn, htailIn, houtIn⟩ := hc.inside hpass.r.1 hhead
  refine ⟨?_, houtIn, ?_, ?_, hheadIn, htail ▸ htailIn⟩
  · rw [hc.sum]
    exact weighted_bytes_le_divisor _ _
  · rw [hc.insum]
    exact sum_bytes_le _ _
  · rw [hc.outsum]
    exact sum_bytes_le _ _

/-- The product of a window's total and the multiplier is below `255 * (2^shift + d)`: the multiplier exceeds `2^shift / d`
by less than 1 (40_division_table.md R82). -/
theorem mul_tableMul_le (S r : Nat) (hS : S ≤ 255 * divisor r) :
    S * tableMul r + 255 ≤ 255 * 2 ^ tableShift r + 255 * divisor r := by
  have hmul := tableMul_lt r
  have hprod : S * tableMul r ≤ 255 * (tableMul r * divisor r) := by
    calc S * tableMul r ≤ 255 * divisor r * tableMul r := Nat.mul_le_mul_right _ hS
      _ = 255 * (tableMul r * divisor r) := by rw [Nat.mul_assoc, Nat.mul_comm (divisor r)]
  omega

/-- Settles O37: `255 * (2^shift + d)` is below both `2^32` and `256 * 2^shift`, since `256 * d < 2^shift ≤ 2^24`. -/
theorem productAndOutputFit : Obligations.ProductAndOutputFit := by
  intro S r hr hS
  have hprod := mul_tableMul_le S r hS
  have hd := divisor_le r hr
  have hpow := lt_pow_tableShift r
  have hshift : 2 ^ tableShift r ≤ 2 ^ 24 := Nat.pow_le_pow_right (by decide) (tableShift_le r hr)
  have hout : fpdiv S r < 2 ^ 8 := Nat.div_lt_of_lt_mul (by omega)
  exact ⟨by omega, hout, Nat.min_eq_left (by omega)⟩

end Sys2Proof.Machine
end

section
/-! What a step changes: the table result and the latched parameters (10_state.md R18, R19, R21): O58, O59. -/

namespace Sys2Proof

/-- A word that decodes to a command is that command's word (30_encoding.md R67, R68). -/
theorem encode_of_decode {w : Word} {i : Instr} (h : decode w = .command i) : encode i = w := by
  unfold decode at h
  split at h
  · cases h
  next hrsv =>
  have hw : commandWord (opcField w) (argField w) = w := commandWord_fields w (not_not.mp hrsv)
  split at h
  next hopc =>
    cases h
    rw [encode, BitVec.ofNat_toNat, BitVec.setWidth_eq, ← hopc]
    exact hw
  next =>
    split at h
    · cases h
    next harg =>
    rw [not_not.mp harg] at hw
    split_ifs at h with hnop hblur hack <;> cases h
    · rw [← hw, encode, hnop]
    · rw [← hw, encode, hblur]
    · rw [← hw, encode, hack]

end Sys2Proof

namespace Sys2Proof.Machine

variable {s t : State}

theorem SameLatched.refl (s : State) : SameLatched s s := ⟨rfl, rfl, rfl, rfl, rfl⟩

theorem State.seed_sameLatched (s : State) (p : Pass) : SameLatched s (s.seed p) := by constructor <;> simp

theorem State.slide_sameLatched (s : State) (p : Pass) : SameLatched s (s.slide p) := by constructor <;> simp

/-- The ENGINE writes neither the table result nor the latched parameters. -/
theorem engineTurn_sameTable_sameLatched (h : engineTurn s = .next t) : SameTable s t ∧ SameLatched s t := by
  obtain ⟨-, rfl⟩ | ⟨p, -, -, ⟨-, -, rfl⟩ | ⟨-, -, rfl⟩⟩ := engineTurn_cases s t h
  · exact ⟨⟨rfl, rfl⟩, .refl _⟩
  · exact ⟨⟨s.seed_dtMul p, s.seed_dtShift p⟩, s.seed_sameLatched p⟩
  · exact ⟨⟨s.slide_dtMul p, s.slide_dtShift p⟩, s.slide_sameLatched p⟩

/-- Of the events, only reset and an accepted command can write the table result or the latched parameters. -/
theorem ActEffect.sameTable_sameLatched_or {e : Event} (h : ActEffect s e t) :
    (SameTable s t ∧ SameLatched s t) ∨ e = .resetAssert ∨
    ∃ i, e = .write s.platform.regBase 32 (encode i) ∧ s.busy = false ∧ CommandEffect s i t := by
  cases h with
  | command v i _ _ hb hd h => exact .inr (.inr ⟨i, by rw [encode_of_decode hd], hb, h⟩)
  | engine _ h => exact .inl (engineTurn_sameTable_sameLatched h)
  | stillReset => exact .inr (.inl rfl)
  | reset => exact .inr (.inl rfl)
  | illegal => exact .inl ⟨⟨rfl, rfl⟩, ⟨rfl, rfl, rfl, rfl, rfl⟩⟩
  | lost => exact .inl ⟨⟨rfl, rfl⟩, .refl _⟩
  | store r v => exact .inl ⟨by constructor <;> simp, by constructor <;> simp⟩
  | read e r => exact .inl ⟨by constructor <;> simp [hostRead], by constructor <;> simp [hostRead]⟩
  | pixWrite => exact .inl ⟨⟨rfl, rfl⟩, ⟨rfl, rfl, rfl, rfl, rfl⟩⟩
  | pixRead => exact .inl ⟨⟨rfl, rfl⟩, ⟨rfl, rfl, rfl, rfl, rfl⟩⟩
  | release => exact .inl ⟨⟨rfl, rfl⟩, ⟨rfl, rfl, rfl, rfl, rfl⟩⟩

/-- Of the steps, only reset and an accepted command can write the table result or the latched parameters. -/
theorem step_sameTable_sameLatched_or (h : step s = .next t) :
    (SameTable s t ∧ SameLatched s t) ∨ (∃ rest, s.events = .resetAssert :: rest) ∨
    ∃ rest i, s.events = .write s.platform.regBase 32 (encode i) :: rest ∧ s.busy = false ∧
      CommandEffect { s with events := rest } i t := by
  obtain h | ⟨e, rest, hev, h⟩ := step_effect s t h
  · exact .inl (engineTurn_sameTable_sameLatched h)
  · obtain ⟨⟨h1, h2⟩, ⟨h3, h4, h5, h6, h7⟩⟩ | rfl | ⟨i, rfl, hb, h⟩ := h.sameTable_sameLatched_or
    · exact .inl ⟨⟨h1, h2⟩, ⟨h3, h4, h5, h6, h7⟩⟩
    · exact .inr (.inl ⟨rest, hev⟩)
    · exact .inr (.inr ⟨rest, i, hev, hb, h⟩)

/-- Settles O58: of the commands, only DIVC with an index of the table writes the table result. -/
theorem onlyDivcChangesTheTableResult : Obligations.OnlyDivcChangesTheTableResult := by
  intro s t hstep hne
  obtain ⟨hsame, -⟩ | hreset | ⟨rest, i, hev, hb, heff⟩ := step_sameTable_sameLatched_or hstep
  · exact absurd hsame hne
  · exact .inl hreset
  · cases heff with
    | table a _ ha => exact .inr ⟨rest, a, hev, ha, hb, rfl, rfl⟩
    | _ => exact absurd ⟨rfl, rfl⟩ hne

/-- Settles O59: of the commands, only the BLUR that starts the row pass latches parameters. -/
theorem onlyBlurChangesTheLatchedParameters : Obligations.OnlyBlurChangesTheLatchedParameters := by
  intro s t hstep hne
  obtain ⟨-, hsame⟩ | hreset | ⟨rest, i, hev, hb, heff⟩ := step_sameTable_sameLatched_or hstep
  · exact absurd hsame hne
  · exact .inl hreset
  · cases heff with
    | start => exact .inr ⟨rest, hev, hb, rfl⟩
    | _ => exact absurd ⟨rfl, rfl, rfl, rfl, rfl⟩ hne

end Sys2Proof.Machine
end

section
/-! Invariants of every step: the relations of the STATUS fields (10_state.md R13) and the ENGINE's ranges and totals
(10_state.md R20 to R22, R28, R29): O53, O54. -/

namespace Sys2Proof.Machine

variable {s t : State} {p q : Pass}

/-- An invariant that does not look at the list of events, and that the ENGINE's turn and every event keep, is kept by
every step. -/
theorem step_preserves (I : State → Prop) (hevents : ∀ s rest, I s → I { s with events := rest })
    (hengine : ∀ s t, I s → engineTurn s = .next t → I t) (hact : ∀ s e t, I s → ActEffect s e t → I t) :
    ∀ s t, I s → step s = .next t → I t := by
  intro s t hs hstep
  obtain h | ⟨e, rest, -, h⟩ := step_effect s t hstep
  · exact hengine s t hs h
  · exact hact _ e t (hevents s rest hs) h

/-- How the sequencer leaves a SLIDE (42_blur_command.md R114, R115). -/
inductive SlideEnd (s : State) : Pass → State → Prop where
  /-- Inside a line. -/
  | inside {p : Pass} {t : State} (hn : s.pos.toNat + 1 < s.lineLength p) (phase : t.phase = s.phase)
      (result : t.result = s.result) (line : t.line = s.line) (pos : t.pos = s.pos + 1) (sub : t.sub = s.sub) :
      SlideEnd s p t
  /-- At the end of a line that is not the last. -/
  | nextLine {p : Pass} {t : State} (hl : s.line.toNat + 1 < s.lineCount p) (phase : t.phase = s.phase)
      (result : t.result = s.result) (line : t.line = s.line + 1) (sub : t.sub = .seeding) : SlideEnd s p t
  /-- At the end of the row pass. -/
  | colPass {t : State} (phase : t.phase = .colpass) (result : t.result = s.result) (line : t.line = 0)
      (sub : t.sub = .seeding) : SlideEnd s .row t
  /-- At the end of the column pass. -/
  | complete {t : State} (phase : t.phase = .done) (result : t.result = .ok) : SlideEnd s .col t

theorem State.slide_end (s : State) (p : Pass) : SlideEnd s p (s.slide p) := by
  by_cases hn : s.pos.toNat + 1 < s.lineLength p
  · obtain ⟨hphase, hresult, hline, hpos, hsub⟩ := s.slide_inside p hn
    exact .inside hn hphase hresult hline hpos hsub
  by_cases hl : s.line.toNat + 1 < s.lineCount p
  · obtain ⟨hphase, hresult, hline, -, hsub⟩ := s.slide_nextLine p hn hl
    exact .nextLine hl hphase hresult hline hsub
  cases p with
  | row =>
    obtain ⟨hphase, hresult, hline, -, hsub⟩ := s.slide_row_last hn hl
    exact .colPass hphase hresult hline hsub
  | col =>
    obtain ⟨hphase, hresult, -⟩ := s.slide_col_last hn hl
    exact .complete hphase hresult

theorem State.busy_of_pass (h : s.phase.pass? = some p) : s.busy = true := by simp [State.busy, h]

/-! ### The relations of the STATUS fields -/

theorem State.StatusOk.congr (h : s.StatusOk) (hst : SameStatus s t) : t.StatusOk := by
  obtain ⟨hbusy, hdone, hfail⟩ := h
  obtain ⟨hp, hr, he⟩ := hst
  exact ⟨by rwa [State.busy, hp, hr, he], by rwa [hp, hr, he], by rwa [hp, hr, he]⟩

/-- While a pass runs the record is empty: a pass that goes on leaves it so, completion writes OK. -/
theorem State.StatusOk.slide (h : s.StatusOk) (hp : s.phase.pass? = some p) : (s.slide p).StatusOk := by
  obtain ⟨hresult, herr⟩ := h.busy (State.busy_of_pass hp)
  have he := (s.slide_errcode p).trans herr
  cases s.slide_end p with
  | inside _ phase result => exact h.congr ⟨phase, result, s.slide_errcode p⟩
  | nextLine _ phase result => exact h.congr ⟨phase, result, s.slide_errcode p⟩
  | colPass phase result => exact State.statusOk_of_none (result.trans hresult) he (by simp [phase])
  | complete phase result => exact State.statusOk_of_ok result he (by simp [State.busy, phase, Phase.pass?])

theorem State.StatusOk.engineTurn (h : s.StatusOk) (ht : engineTurn s = .next t) : t.StatusOk := by
  obtain ⟨-, rfl⟩ | ⟨p, -, hp, ⟨-, -, rfl⟩ | ⟨-, -, rfl⟩⟩ := engineTurn_cases s t ht
  · exact h
  · exact h.congr ⟨s.seed_phase p, s.seed_result p, s.seed_errcode p⟩
  · exact h.slide hp

/-- Every command leaves the record as it is, empty, with a success or with an error. -/
theorem State.StatusOk.command {i : Instr} (h : s.StatusOk) (ht : CommandEffect s i t) : t.StatusOk := by
  cases ht with
  | dropped => exact h
  | nop => exact h
  | ack => exact State.statusOk_of_none rfl rfl (by simp)
  | table => exact State.statusOk_of_ok rfl rfl rfl
  | noEntry => exact s.statusOk_raise (by decide)
  | badRadius => exact s.statusOk_raise (by decide)
  | badLength => exact s.statusOk_raise (by decide)
  | empty => exact State.statusOk_of_ok rfl rfl rfl
  | start => exact State.statusOk_of_none rfl rfl (by simp)

theorem State.StatusOk.act {e : Event} (h : s.StatusOk) (ht : ActEffect s e t) : t.StatusOk := by
  cases ht with
  | command _ _ _ _ _ _ hi => exact h.command hi
  | illegal => exact s.statusOk_raise (by decide)
  | lost => exact h
  | store r v => exact h.congr ⟨by simp, by simp, by simp⟩
  | read e r => exact h.congr ⟨by simp [hostRead], by simp [hostRead], by simp [hostRead]⟩
  | pixWrite => exact h.congr ⟨rfl, rfl, rfl⟩
  | pixRead => exact h.congr ⟨rfl, rfl, rfl⟩
  | engine _ ht => exact h.engineTurn ht
  | stillReset => exact h
  | reset => exact State.statusOk_of_none rfl rfl nofun
  | release => exact h.congr ⟨rfl, rfl, rfl⟩

/-- Settles O53: every record a step writes is empty, a success or an error, each with a PHASE that goes with it. -/
theorem stepKeepsStatusRelations : Obligations.StepKeepsStatusRelations :=
  step_preserves State.StatusOk (fun _ _ h => h.congr ⟨rfl, rfl, rfl⟩) (fun _ _ h => h.engineTurn)
    (fun _ _ _ h => h.act)

/-! ### The ENGINE's ranges and totals -/

/-- What a running pass needs of the rest of the block stays: its parameters, its memory, its loan, no reset. -/
structure PassKept (s t : State) : Prop where
  latched : SameLatched s t
  platform : t.platform = s.platform
  released : s.resetIn = false → t.resetIn = false
  lent : s.loan ≤ t.loan

theorem SameLatched.lineLength (h : SameLatched s t) (p : Pass) : t.lineLength p = s.lineLength p := by
  cases p
  · exact congrArg BitVec.toNat h.latW
  · exact congrArg BitVec.toNat h.latH

theorem SameLatched.lineCount (h : SameLatched s t) (p : Pass) : t.lineCount p = s.lineCount p := by
  cases p
  · exact congrArg BitVec.toNat h.latH
  · exact congrArg BitVec.toNat h.latW

/-- A pass in range stays so, or gives way to the other pass, if the new line and what SLIDE will use are in range. -/
theorem State.PassOk.move (h : s.PassOk p) (hk : PassKept s t) (hline : t.line.toNat < t.lineCount q)
    (hsliding : t.sub = .sliding → t.SlidingOk q) : t.PassOk q := by
  obtain ⟨hw, hh, hsize, hexist, hlent, hr, hmul, hsh, -, hrel, -⟩ := h
  obtain ⟨⟨eW, eH, eR, eMul, eSh⟩, ePlat, hrel', hloan⟩ := hk
  rw [← eW] at hw
  rw [← eH] at hh
  rw [← eW, ← eH] at hsize hexist hlent
  rw [← eR] at hr
  rw [← eMul, ← eR] at hmul
  rw [← eSh, ← eR] at hsh
  rw [← ePlat] at hexist
  exact ⟨hw, hh, hsize, hexist, hlent.trans hloan, hr, hmul, hsh, hline, hrel' hrel, hsliding⟩

theorem State.SlidingOk.congr (h : s.SlidingOk p) (hl : SameLatched s t) (hpos : t.pos = s.pos)
    (hk : SameKernel s t) : t.SlidingOk p where
  pos := by rw [hpos, hl.lineLength]; exact h.pos
  head := by rw [hk.head, hl.latR]; exact h.head
  tail := by rw [hk.tail, hk.head, hl.latR]; exact h.tail
  lanes c := by rw [State.lane, hk.lanes, hk.head, hl.latR]; exact h.lanes c

/-- An update that touches neither the sequencer nor the kernel keeps the ENGINE in range. -/
theorem State.EngineOk.congr (h : s.EngineOk) (hphase : t.phase = s.phase) (hk : PassKept s t)
    (hpos : SamePosition s t) (hker : SameKernel s t) : t.EngineOk := fun p hp => by
  have hpass := h p (hphase ▸ hp)
  refine hpass.move hk ?_ fun hsub => ?_
  · rw [hpos.line, hk.latched.lineCount]
    exact hpass.line
  · exact (hpass.sliding (hpos.sub ▸ hsub)).congr hk.latched hpos.pos hker

/-- The ENGINE's ranges do not speak of the bytes of PIX, the events to come and the replies. -/
theorem State.EngineOk.withRest (h : s.EngineOk) (pix : Pix) (events : List Event) (replies : List Reply) :
    ({ s with pix := pix, events := events, replies := replies } : State).EngineOk :=
  h.congr rfl ⟨⟨rfl, rfl, rfl, rfl, rfl⟩, rfl, id, le_rfl⟩ ⟨rfl, rfl, rfl⟩ ⟨rfl, rfl, rfl⟩

theorem State.seed_passKept (s : State) (p : Pass) : PassKept s (s.seed p) :=
  ⟨s.seed_sameLatched p, by simp, by simp, by simp⟩

theorem State.slide_passKept (s : State) (p : Pass) : PassKept s (s.slide p) :=
  ⟨s.slide_sameLatched p, by simp, by simp, by simp⟩

/-- The successor of a ring node is a ring node (10_state.md R27). -/
theorem nextNode_toNat (r : Nat) (i : BitVec 9) (hr : r ≤ 254) :
    (nextNode r i).toNat = (i.toNat + 1) % (2 * r + 1) := by
  have := Nat.mod_lt (i.toNat + 1) (show 0 < 2 * r + 1 by omega)
  rw [nextNode, BitVec.toNat_ofNat, Nat.mod_eq_of_lt (by omega)]

/-- SEED puts the cursors where R28 has them and writes the totals of the ring it fills (R92). -/
theorem State.PassOk.seed_slidingOk (h : s.PassOk p) : (s.seed p).SlidingOk p := by
  obtain ⟨hr1, hr2⟩ := h.r
  have hn := h.lineLength_pos
  refine ⟨?_, ?_, ?_, fun c => ?_⟩
  · rw [(s.seed_sameLatched p).lineLength]
    exact hn
  · exact Nat.succ_pos _
  · have htail : (0 + s.latR.toNat + 1) % (2 * s.latR.toNat + 1) = s.latR.toNat + 1 := by
      rw [Nat.mod_eq_of_lt (by omega), Nat.zero_add]
    rw [State.seed_head, State.seed_tail, State.seed_latR, BitVec.toNat_ofNat]
    exact (Nat.mod_eq_of_lt (by omega)).trans htail.symm
  · rw [State.seed_lane, State.seed_latR, State.seed_head]
    exact seedLane_consistent _ _ _ hr2

/-- SLIDE inside a line moves both cursors by one node and the totals with them (R28, R93, R94). -/
theorem State.PassOk.slide_slidingOk (h : s.PassOk p) (hs : s.sub = .sliding)
    (hpos : (s.slide p).pos.toNat < s.lineLength p) : (s.slide p).SlidingOk p := by
  obtain ⟨hr1, hr2⟩ := h.r
  obtain ⟨-, hhead, htail, hlanes⟩ := h.sliding hs
  refine ⟨?_, ?_, ?_, fun c => ?_⟩
  · rwa [(s.slide_sameLatched p).lineLength]
  · rw [State.slide_head, State.slide_latR, nextNode_toNat _ _ hr2]
    exact Nat.mod_lt _ (by omega)
  · rw [State.slide_head, State.slide_tail, State.slide_latR, nextNode_toNat _ _ hr2, nextNode_toNat _ _ hr2, htail,
      Nat.mod_add_mod, Nat.add_assoc (_ % _), Nat.mod_add_mod]
    congr 1
    omega
  · rw [State.slide_lane, State.slide_head, State.slide_latR, nextNode_toNat _ _ hr2]
    exact slideLane_consistent _ _ _ _ _ hr1 hr2 hhead htail (hlanes c)

theorem State.PassOk.seed_engineOk (h : s.PassOk p) (hp : s.phase.pass? = some p) : (s.seed p).EngineOk := by
  intro q hq
  rw [State.seed_phase, hp] at hq
  cases hq
  refine h.move (s.seed_passKept p) ?_ fun _ => h.seed_slidingOk
  rw [State.seed_line, (s.seed_sameLatched p).lineCount]
  exact h.line

/-- SLIDE leaves the same pass in range on the same or the next line, the column pass at its start, or no pass. -/
theorem State.PassOk.slide_engineOk (h : s.PassOk p) (hp : s.phase.pass? = some p) (hs : s.sub = .sliding) :
    (s.slide p).EngineOk := by
  intro q hq
  have hk := s.slide_passKept p
  cases s.slide_end p with
  | inside hn phase _ line pos =>
    rw [phase, hp] at hq
    cases hq
    refine h.move hk ?_ fun _ => h.slide_slidingOk hs ?_
    · rw [line, hk.latched.lineCount]
      exact h.line
    · rw [pos, BitVec.toNat_add]
      exact lt_of_le_of_lt (Nat.mod_le _ _) hn
  | nextLine hl phase _ line sub =>
    rw [phase, hp] at hq
    cases hq
    refine h.move hk ?_ fun hsub => by simp [sub] at hsub
    rw [line, hk.latched.lineCount, BitVec.toNat_add]
    exact lt_of_le_of_lt (Nat.mod_le _ _) hl
  | colPass phase _ line sub =>
    rw [phase] at hq
    cases hq
    refine h.move hk ?_ fun hsub => by simp [sub] at hsub
    rw [line, hk.latched.lineCount]
    exact h.w
  | complete phase => simp [phase, Phase.pass?] at hq

theorem State.EngineOk.engineTurn (h : s.EngineOk) (ht : engineTurn s = .next t) : t.EngineOk := by
  obtain ⟨-, rfl⟩ | ⟨p, -, hp, ⟨-, -, rfl⟩ | ⟨hs, -, rfl⟩⟩ := engineTurn_cases s t ht
  · exact h
  · exact (h p hp).seed_engineOk hp
  · exact (h p hp).slide_engineOk hp hs

/-- The low 8 bits of a radius in range are its value (10_state.md R21). -/
theorem State.latch_latR_toNat (h1 : 1 ≤ s.argR) (h2 : s.argR ≤ 254) : (s.latch.latR.toNat : Int) = s.argR := by
  have hlt := s.radius.isLt
  have hint : s.argR = _ := BitVec.toInt_eq_toNat_cond s.radius
  rw [State.latch_latR, BitVec.toNat_setWidth]
  split at hint <;> omega

/-- An accepted BLUR starts the row pass in range: R111 has checked the parameters it latches. -/
theorem State.startBlur_passOk (hrel : s.resetIn = false) (h1 : 1 ≤ s.argR) (h2 : s.argR ≤ 254)
    (hl : s.argW * s.argH * 4 = s.argLen) (hw : s.argW ≠ 0) (hh : s.argH ≠ 0) (hp : s.argLen ≤ s.platform.pixSize) :
    s.startBlur.PassOk .row := by
  have hR : (s.startBlur.latR.toNat : Int) = s.argR := State.latch_latR_toNat h1 h2
  have hRNat : s.argR.toNat = s.startBlur.latR.toNat := by omega
  have hlen : 4 * s.startBlur.latW.toNat * s.startBlur.latH.toNat = s.argLen := by
    rw [← hl, Nat.mul_assoc, Nat.mul_comm 4]
    rfl
  have hlt : s.argLen < 2 ^ 32 := s.bufLen.isLt
  exact {
    w := Nat.pos_of_ne_zero hw
    h := Nat.pos_of_ne_zero hh
    size := hlen ▸ hlt
    exist := hlen ▸ hp
    lent := hlen ▸ le_max_right _ _
    r := by omega
    mul := hRNat ▸ rfl
    sh := hRNat ▸ rfl
    line := Nat.pos_of_ne_zero hh
    released := hrel
    sliding := nofun }

theorem State.EngineOk.command {i : Instr} (h : s.EngineOk) (hrel : s.resetIn = false) (ht : CommandEffect s i t) :
    t.EngineOk := by
  cases ht with
  | dropped => exact h
  | nop => exact h
  | start _ h1 h2 hl hw hh hp =>
    intro q hq
    cases hq
    exact State.startBlur_passOk hrel h1 h2 hl hw hh hp
  | _ => exact State.engineOk_of_not_busy rfl

/-- A read keeps the loan while a pass runs: only DONE hands the buffer back (70_reset_and_hazards.md R173). -/
theorem State.EngineOk.hostRead (h : s.EngineOk) (r : HostReg) : (hostRead r s).EngineOk := by
  by_cases hd : s.phase = .done
  · exact State.engineOk_of_not_busy (by simp [Machine.hostRead, State.busy, hd, Phase.pass?])
  · refine h.congr ?_ ⟨?_, ?_, ?_, ?_⟩ ?_ ?_
    · simp [Machine.hostRead]
    · constructor <;> simp [Machine.hostRead]
    · simp [Machine.hostRead]
    · simp [Machine.hostRead]
    · simp [Machine.hostRead, State.handBack_loan, hd]
    · constructor <;> simp [Machine.hostRead]
    · constructor <;> simp [Machine.hostRead]

theorem State.EngineOk.act {e : Event} (h : s.EngineOk) (ht : ActEffect s e t) : t.EngineOk := by
  cases ht with
  | command _ _ _ hrel _ _ hi => exact h.command hrel hi
  | illegal => exact State.engineOk_of_not_busy rfl
  | lost => exact h
  | store r v =>
    refine h.congr (by simp) ⟨?_, by simp, by simp, by simp⟩ ?_ ?_ <;> constructor <;> simp
  | read e r => exact h.hostRead r
  | pixWrite => exact h.withRest _ _ _
  | pixRead => exact h.withRest _ _ _
  | engine _ ht => exact h.engineTurn ht
  | stillReset => exact h
  | reset => exact State.engineOk_of_not_busy rfl
  | release =>
    exact h.congr rfl ⟨⟨rfl, rfl, rfl, rfl, rfl⟩, rfl, fun _ => rfl, le_rfl⟩ ⟨rfl, rfl, rfl⟩ ⟨rfl, rfl, rfl⟩

/-- Settles O54: BLUR starts the row pass in range, SEED and SLIDE keep a pass in range, and while it runs no HOST access
reaches what it uses. -/
theorem stepKeepsEngineRanges : Obligations.StepKeepsEngineRanges :=
  step_preserves State.EngineOk (fun _ _ h => h.withRest _ _ _) (fun _ _ h => h.engineTurn) (fun _ _ _ h => h.act)

end Sys2Proof.Machine
end

section
/-! The pixel memory: the addresses of the ENGINE (20_memory.md R42, R45, R46, R53), the HOST's accesses to registers
and PIX (R43, R47, R51), which steps change PIX and the form they keep (R41): O25, O26, O34, O35, O55, O57. -/

namespace Sys2Proof.Machine

variable {s t : State} {e : Event} {p : Pass} {m : Pix}

/-! ### Addresses of the ENGINE -/

theorem State.PassOk.sampleAddr_lt (h : s.PassOk p) (coord : Nat) (c : Chan) :
    s.sampleAddr p coord c < 4 * s.latW.toNat * s.latH.toNat :=
  s.pixAddr_lt p _ _ c h.line (clampc_lt _ _ h.lineLength_pos)

theorem State.PassOk.outAddr_lt (h : s.PassOk p) (hs : s.sub = .sliding) (c : Chan) :
    s.outAddr p c < 4 * s.latW.toNat * s.latH.toNat :=
  s.pixAddr_lt p _ _ c h.line (h.sliding hs).pos

/-- The alpha byte of a pixel is number 3, which is no channel's (20_memory.md R42, R53). -/
theorem Chan.idx_ne_three (c : Chan) : c.idx ≠ 3 := c.idx_lt.ne

/-- Settles O34: line and clamped coordinate, or line and POS, are inside the image, and an address keeps its channel's
number modulo 4. -/
theorem engineAddressesAreInsideTheBuffer : Obligations.EngineAddressesAreInsideTheBuffer := by
  intro s p c h
  refine ⟨fun coord => ⟨h.sampleAddr_lt coord c, ?_⟩, fun hs => ⟨h.outAddr_lt hs c, ?_⟩⟩
  · rw [State.sampleAddr_mod]
    exact c.idx_ne_three
  · rw [State.outAddr_mod]
    exact c.idx_ne_three

/-- A row-major index fixes row and column: they are its quotient and its remainder by the width. -/
theorem rowMajor_inj {w x y x' y' : Nat} (hx : x < w) (hx' : x' < w) (h : y * w + x = y' * w + x') :
    y = y' ∧ x = x' := by
  have hw : 0 < w := by omega
  obtain ⟨hdiv, hmod⟩ := (Nat.div_mod_unique hw).mpr ⟨show x + w * y = y * w + x by ring, hx⟩
  obtain ⟨hdiv', hmod'⟩ := (Nat.div_mod_unique hw).mpr ⟨show x' + w * y' = y * w + x by rw [h]; ring, hx'⟩
  exact ⟨hdiv.symm.trans hdiv', hmod.symm.trans hmod'⟩

/-- Settles O35: an address gives back the channel modulo 4, and its pixel number the column and the row. -/
theorem scanlinesAreDisjoint : Obligations.ScanlinesAreDisjoint := by
  intro w p l q l' q' c c' hrow hcol h
  have hc : c.idx = c'.idx := by rw [← pixAddr_mod w p l q c, h, pixAddr_mod]
  cases p with
  | row =>
    obtain ⟨hq, hq'⟩ := hrow rfl
    obtain ⟨hl, hq⟩ := rowMajor_inj hq hq' (y := l) (y' := l') (by simp only [pixAddr] at h; omega)
    exact ⟨hl, hq, Chan.idx_inj c c' hc⟩
  | col =>
    obtain ⟨hl, hl'⟩ := hcol rfl
    obtain ⟨hq, hl⟩ := rowMajor_inj hl hl' (y := q) (y' := q') (by simp only [pixAddr] at h; omega)
    exact ⟨hl, hq, Chan.idx_inj c c' hc⟩

/-! ### The HOST's accesses -/

/-- Settles O25: the eight accesses of R51 reach their register, and every other is refused (U6). -/
theorem accessesOfTheRegisterBlock : Obligations.AccessesOfTheRegisterBlock := by
  intro s addr bits rest hr
  refine ⟨?_, fun hnone => ?_⟩
  · rintro r rfl rfl
    refine ⟨fun he => ?_, fun v he => ?_⟩
    · rw [step_event s _ rest he nofun]
      exact act_read { s with events := rest } r hr
    · rw [step_event s _ rest he nofun]
      exact act_write { s with events := rest } r v hr
  · have hn := State.regAt_eq_none { s with events := rest } addr bits hnone
    refine ⟨fun he => ?_, fun v he => ?_⟩
    · rw [step_event s _ rest he nofun]
      exact act_read_none _ addr bits hr hn
    · rw [step_event s _ rest he nofun]
      exact act_write_none _ addr bits v hr hn

/-- A step on a HOST write of PIX, out of reset. -/
theorem step_pixWrite (s : State) (addr : Nat) (b : Byte) (rest : List Event) (hr : s.resetIn = false)
    (he : s.events = .pixWrite addr b :: rest) :
    step s = onPixByte s addr (.next ({ s with events := rest }.memWrite addr b)) := by
  rw [step_event s _ rest he nofun]
  exact outOfReset_released { s with events := rest } _ hr

/-- A step on a HOST read of PIX, out of reset. -/
theorem step_pixRead (s : State) (addr : Nat) (rest : List Event) (hr : s.resetIn = false)
    (he : s.events = .pixRead addr :: rest) :
    step s = onPixByte s addr (.next ({ s with events := rest }.reply (.pix (s.memRead addr)))) := by
  rw [step_event s _ rest he nofun]
  exact outOfReset_released { s with events := rest } _ hr

/-- Settles O26: an access happens on a byte that exists and is not lent; a write there changes that byte alone. -/
theorem hostPixAccesses : Obligations.HostPixAccesses := by
  intro s addr b rest hr
  refine ⟨fun he => ?_, fun he => ?_⟩
  · rw [step_pixWrite s addr b rest hr he]
    refine ⟨fun hx hl => ?_, onPixByte_lent s addr _, onPixByte_absent s addr _⟩
    exact ⟨_, onPixByte_free s addr _ hx hl, State.memRead_memWrite_same _ addr b,
      fun a ha => State.memRead_memWrite_other _ addr a b ha, rfl⟩
  · rw [step_pixRead s addr rest hr he]
    exact ⟨onPixByte_free s addr _, onPixByte_lent s addr _, onPixByte_absent s addr _⟩

/-! ### What a step does to PIX -/

/-- Everything an event that answers a next state can leave in PIX: SEED, commands and register accesses leave it as it
is. -/
inductive PixEffect (s : State) : Event → Pix → Prop where
  /-- PIX is not written. -/
  | same (e : Event) : PixEffect s e s.pix
  /-- The HOST writes a byte that exists (20_memory.md R47). -/
  | host (a : Nat) (b : Byte) (ha : a < s.platform.pixSize) : PixEffect s (.pixWrite a b) (s.memWrite a b).pix
  /-- The ENGINE takes a SLIDE (41_sweep_kernel.md R93). -/
  | slide (p : Pass) (hp : s.phase.pass? = some p) (hs : s.sub = .sliding) (hf : s.slideFault p = none) :
      PixEffect s .engine (s.slide p).pix
  /-- The reset input cuts a blur short (70_reset_and_hazards.md R171). -/
  | freed (hb : s.busy = true) : PixEffect s .resetAssert
      (freedPix s.draws (min (4 * s.latW.toNat * s.latH.toNat) s.platform.pixSize) s.pix)

theorem engineTurn_pixEffect (h : engineTurn s = .next t) : PixEffect s .engine t.pix := by
  obtain ⟨-, rfl⟩ | ⟨p, -, hp, ⟨-, -, rfl⟩ | ⟨hs, hf, rfl⟩⟩ := engineTurn_cases s t h
  · exact .same _
  · rw [State.seed_pix]
    exact .same _
  · exact .slide p hp hs hf

theorem CommandEffect.pix {i : Instr} (h : CommandEffect s i t) : t.pix = s.pix := by cases h <;> rfl

theorem CommandEffect.platform {i : Instr} (h : CommandEffect s i t) : t.platform = s.platform := by cases h <;> rfl

theorem State.assertReset_pixEffect (s : State) : PixEffect s .resetAssert s.assertReset.pix := by
  cases hb : s.busy with
  | false =>
    have hpix : s.assertReset.pix = s.pix := by simp [State.assertReset, hb]
    rw [hpix]
    exact .same _
  | true =>
    have hpix : s.assertReset.pix = freedPix s.draws _ s.pix := if_pos hb
    rw [hpix]
    exact .freed hb

theorem ActEffect.pixEffect (h : ActEffect s e t) : PixEffect s e t.pix := by
  cases h with
  | command _ _ _ _ _ _ hc =>
    rw [hc.pix]
    exact .same _
  | store r v =>
    rw [State.storeReg_pix]
    exact .same _
  | read e r =>
    rw [hostRead, State.handBack_pix]
    exact .same _
  | pixWrite a b _ ha => exact .host a b ha
  | engine _ ht => exact engineTurn_pixEffect ht
  | reset => exact s.assertReset_pixEffect
  | _ => exact .same _

theorem engineTurn_platform (h : engineTurn s = .next t) : t.platform = s.platform := by
  obtain ⟨-, rfl⟩ | ⟨p, -, -, ⟨-, -, rfl⟩ | ⟨-, -, rfl⟩⟩ := engineTurn_cases s t h
  · rfl
  · exact s.seed_platform p
  · exact s.slide_platform p

/-- No event changes what the platform fixes (00_scope.md R6). -/
theorem ActEffect.platform (h : ActEffect s e t) : t.platform = s.platform := by
  cases h with
  | command _ _ _ _ _ _ hc => exact hc.platform
  | store r v => exact s.storeReg_platform r v
  | read e r => exact State.handBack_platform _ r
  | engine _ ht => exact engineTurn_platform ht
  | _ => rfl

/-! ### The form of PIX -/

theorem State.MemOk.memWrite {a : Nat} {b : Byte} (h : s.MemOk) (ha : a < s.platform.pixSize) :
    (s.memWrite a b).MemOk :=
  ⟨Pix.write_wf _ a b h.1, Pix.write_below _ a _ b h.2 ha⟩

/-- SLIDE guards the B byte of its pixel, the last of the three it writes. -/
theorem State.outAddr_lt_pixSize (h : s.slideFault p = none) (c : Chan) : s.outAddr p c < s.platform.pixSize := by
  have hb : s.outAddr p .b < s.platform.pixSize := by
    unfold State.slideFault at h
    split_ifs at h
    omega
  have hle : s.outAddr p c ≤ s.outAddr p .b := by
    have := c.idx_lt
    cases p <;> simp only [State.outAddr, pixAddr, show Chan.b.idx = 2 from rfl] <;> omega
  exact hle.trans_lt hb

theorem State.MemOk.slideChan {c : Chan} (h : s.MemOk) (ha : s.outAddr p c < s.platform.pixSize) :
    (s.slideChan p c).MemOk := h.memWrite ha

theorem State.MemOk.slide (h : s.MemOk) (hf : s.slideFault p = none) : (s.slide p).MemOk := by
  have hlt := State.outAddr_lt_pixSize hf
  have hlanes : (s.slideLanes p).MemOk :=
    ((h.slideChan (hlt .r)).slideChan (by simpa using hlt .g)).slideChan (by simpa using hlt .b)
  rw [State.slide_eq, State.MemOk, State.advance_pix, State.advance_platform]
  exact hlanes

/-- Whatever an event leaves in PIX is canonical and lists only bytes that exist, if PIX was so before. -/
theorem PixEffect.form (h : PixEffect s e m) (hs : s.MemOk) : m.wf ∧ m.below s.platform.pixSize := by
  cases h with
  | same => exact hs
  | host a b ha => exact hs.memWrite ha
  | slide p _ _ hf =>
    rw [← s.slide_platform p]
    exact hs.slide hf
  | freed => exact ⟨freedPix_wf _ _ _ hs.1, freedPix_below _ _ _ _ hs.2 (min_le_right _ _)⟩

theorem State.MemOk.of_pixEffect (h : s.MemOk) (hp : PixEffect s e t.pix) (hplat : t.platform = s.platform) :
    t.MemOk := by
  rw [State.MemOk, hplat]
  exact hp.form h

/-- Settles O55: what each event leaves in PIX keeps the form, and the platform is the one the step started on. -/
theorem stepKeepsMemoryForm : Obligations.StepKeepsMemoryForm := by
  intro s t hs hstep
  refine step_preserves (fun x => x.MemOk ∧ x.platform = s.platform) (fun _ _ h => h) ?_ ?_ s t ⟨hs, rfl⟩ hstep
  · rintro x y ⟨hx, hplat⟩ hy
    have hsame := engineTurn_platform hy
    exact ⟨hx.of_pixEffect (engineTurn_pixEffect hy) hsame, hsame.trans hplat⟩
  · rintro x e y ⟨hx, hplat⟩ hy
    exact ⟨hx.of_pixEffect hy.pixEffect hy.platform, hy.platform.trans hplat⟩

/-! ### Where PIX changes -/

/-- A block that is not busy leaves PIX to the HOST (20_memory.md R47). -/
theorem PixEffect.eq_of_idle (h : PixEffect s e m) (hb : s.busy = false) (he : ∀ a b, e ≠ .pixWrite a b) :
    m = s.pix := by
  cases h with
  | same => rfl
  | host a b => exact absurd rfl (he a b)
  | slide p hp =>
    rw [State.busy_of_pass hp] at hb
    cases hb
  | freed hbusy =>
    rw [hbusy] at hb
    cases hb

/-- The ENGINE leaves every byte above the buffer alone (20_memory.md R53). -/
theorem PixEffect.read_above (h : PixEffect s .engine m) (hs : s.EngineOk) {a : Nat}
    (ha : 4 * s.latW.toNat * s.latH.toNat ≤ a) : Pix.read m a = s.memRead a := by
  cases h with
  | same => rfl
  | slide p hp hsub =>
    have hout : ∀ c, a ≠ s.outAddr p c := fun c => (((hs p hp).outAddr_lt hsub c).trans_le ha).ne'
    exact s.slide_memRead_other p a hout

/-- Settles O57: without a HOST write an idle block's PIX stays the same list, and a SLIDE in range writes inside the
buffer only. -/
theorem pixFootprint : Obligations.PixFootprint := by
  refine ⟨fun s t hb hstep hhost => ?_, fun s t hs ht a ha => (engineTurn_pixEffect ht).read_above hs ha⟩
  have hpix : t.pix = s.pix := by
    obtain h | ⟨e, rest, hev, h⟩ := step_effect s t hstep
    · exact (engineTurn_pixEffect h).eq_of_idle hb nofun
    · exact h.pixEffect.eq_of_idle hb fun a b he => hhost a b rest (he ▸ hev)
  exact fun a => congrArg (Pix.read · a) hpix

end Sys2Proof.Machine
end

section
/-! The encoding (30_encoding.md R61 to R68): which commands have a word, which words are legal, the opcode map: O1,
O2, O3, O5. -/

namespace Sys2Proof

/-! ### Decoding and encoding are inverse -/

/-- The word of a command that fits its fields decodes to it. -/
theorem decode_encode {i : Instr} (h : WellFormed i = true) : decode (encode i) = .command i := by
  have hstatement : Laws.CommandWords.Statement i :=
    match i with
    | .nop => Laws.CommandWords.nop
    | .blur => Laws.CommandWords.blur
    | .divc a => Laws.CommandWords.divc a
    | .ack => Laws.CommandWords.ack
  obtain ⟨-, -, -, hdecode⟩ := hstatement h
  exact hdecode

/-- The operand a decoded DIVC carries is the value of an 8-bit field. -/
theorem wellFormed_of_decode {w : Word} {i : Instr} (h : decode w = .command i) : WellFormed i = true := by
  unfold decode at h
  split_ifs at h <;> cases h
  · exact decide_eq_true (argField w).isLt
  all_goals rfl

/-- The legal words are the words of the well-formed commands. -/
theorem decode_eq_command_iff {w : Word} {i : Instr} :
    decode w = .command i ↔ WellFormed i = true ∧ encode i = w :=
  ⟨fun h => ⟨wellFormed_of_decode h, encode_of_decode h⟩, fun ⟨hi, hw⟩ => hw ▸ decode_encode hi⟩

/-- Settles O1: the fields of the word are the ones `decode` reads, command by command. -/
theorem decodeOfEncode : Obligations.DecodeOfEncode := fun _ => decode_encode

/-- Settles O2: a legal word has RSV 0, so its fields make it, and an operand read from ARG fits ARG. -/
theorem encodeOfDecode : Obligations.EncodeOfDecode := fun _ _ => decode_eq_command_iff.mp

/-! ### The legal words, by their fields -/

/-- Two words with the same fields are the same word. -/
theorem word_eq_iff_fields {w v : Word} :
    w = v ↔ rsvField w = rsvField v ∧ argField w = argField v ∧ opcField w = opcField v := by
  constructor
  · rintro rfl
    exact ⟨rfl, rfl, rfl⟩
  · rintro ⟨hrsv, harg, hopc⟩
    apply BitVec.eq_of_toNat_eq
    rw [toNat_fields w, toNat_fields v, hrsv, harg, hopc]

theorem rsvField_and (w m : Word) : rsvField (w &&& m) = rsvField w &&& rsvField m := BitVec.extractLsb'_and

theorem argField_and (w m : Word) : argField (w &&& m) = argField w &&& argField m := BitVec.extractLsb'_and

theorem opcField_and (w m : Word) : opcField (w &&& m) = opcField w &&& opcField m := BitVec.extractLsb'_and

/-- The words of DIVC: ARG is free. -/
theorem decode_divc_iff {w : Word} :
    (∃ a, decode w = .command (.divc a)) ↔ rsvField w = 0 ∧ opcField w = 0x02 := by
  unfold decode
  split_ifs <;> simp_all

/-- A mask of all ones compares the whole word. -/
theorem decode_eq_command_iff_and_allOnes {w : Word} {i : Instr} (hi : WellFormed i = true) :
    decode w = .command i ↔ w &&& 0xFFFFFFFF#32 = encode i := by
  have hmask : w &&& 0xFFFFFFFF#32 = w := BitVec.and_allOnes
  rw [decode_eq_command_iff, hmask]
  exact ⟨fun h => h.2.symm, fun h => ⟨hi, h.symm⟩⟩

/-- The mask of DIVC compares RSV and OPC and lets ARG go (30_encoding.md section 2). -/
theorem and_divcMask_eq_iff {w : Word} :
    w &&& 0xFFFF00FF#32 = 0x00000002#32 ↔ rsvField w = 0 ∧ opcField w = 0x02 := by
  have hrsv : rsvField w &&& rsvField 0xFFFF00FF#32 = rsvField w := BitVec.and_allOnes
  have harg : argField w &&& argField 0xFFFF00FF#32 = 0 := BitVec.and_zero
  have hopc : opcField w &&& opcField 0xFFFF00FF#32 = opcField w := BitVec.and_allOnes
  rw [word_eq_iff_fields, rsvField_and, argField_and, opcField_and, hrsv, harg, hopc]
  exact ⟨fun ⟨h, _, h'⟩ => ⟨h, h'⟩, fun ⟨h, h'⟩ => ⟨h, rfl, h'⟩⟩

/-- Settles O3: three rows compare the whole word with the command's one word, the row of DIVC compares two fields. -/
theorem decodeAgreesWithOpcodeMap : Obligations.DecodeAgreesWithOpcodeMap := fun _ =>
  ⟨decode_eq_command_iff_and_allOnes rfl, decode_eq_command_iff_and_allOnes rfl,
    decode_divc_iff.trans and_divcMask_eq_iff.symm, decode_eq_command_iff_and_allOnes rfl⟩

/-! ### The fields as numbers -/

theorem opcField_toNat (w : Word) : (opcField w).toNat = w.toNat % 256 := by
  rw [opcField, BitVec.extractLsb'_toNat, Nat.shiftRight_zero]

theorem argField_toNat (w : Word) : (argField w).toNat = w.toNat / 256 % 256 := by
  rw [argField, BitVec.extractLsb'_toNat, Nat.shiftRight_eq_div_pow]

theorem rsvField_toNat (w : Word) : (rsvField w).toNat = w.toNat / 2 ^ 16 := by
  rw [rsvField, BitVec.extractLsb'_toNat, Nat.shiftRight_eq_div_pow]
  omega

/-- The tests of the decoder that end in ILLEGAL (30_encoding.md R67, R68). -/
theorem decode_illegal_iff_fields {w : Word} :
    (∃ why, decode w = .illegal why) ↔
      rsvField w ≠ 0 ∨ opcField w ≠ 0x02 ∧
        (argField w ≠ 0 ∨ opcField w ≠ 0x00 ∧ opcField w ≠ 0x01 ∧ opcField w ≠ 0x03) := by
  unfold decode
  split_ifs <;> simp_all

/-- The illegal words, as numbers (30_encoding.md R67). -/
theorem decode_illegal_iff {w : Word} :
    (∃ why, decode w = .illegal why) ↔
      4 ≤ w.toNat % 256 ∨ w.toNat / 2 ^ 16 ≠ 0 ∨
        ((w.toNat % 256 = 0 ∨ w.toNat % 256 = 1 ∨ w.toNat % 256 = 3) ∧ w.toNat / 256 % 256 ≠ 0) := by
  rw [decode_illegal_iff_fields]
  simp only [ne_eq, ← BitVec.toNat_inj, opcField_toNat, argField_toNat, rsvField_toNat,
    BitVec.reduceToNat]
  omega

/-! ### The words of DIVC -/

/-- DIVC a has the word 2 + a * 256 (30_encoding.md R65). -/
theorem encode_divc {a : Nat} (h : a ≤ 255) :
    encode (.divc a) = BitVec.ofNat 32 (0x00000002 + a * 0x100) := by
  rw [encode, commandWord, BitVec.toNat_ofNat, Nat.mod_eq_of_lt (by omega), Nat.add_comm]
  rfl

theorem wellFormed_divc {a : Nat} (h : a ≤ 255) : WellFormed (.divc a) = true :=
  decide_eq_true (Nat.lt_succ_of_le h)

/-! ### How many words are legal -/

/-- The commands that have a word: three without an operand, and DIVC with each of its 256 operands. -/
def commandsWithWord : List Instr := .nop :: .blur :: .ack :: (List.range 256).map .divc

theorem mem_commandsWithWord {i : Instr} : i ∈ commandsWithWord ↔ WellFormed i = true := by
  cases i <;> simp [commandsWithWord, WellFormed]

theorem commandsWithWord_nodup : commandsWithWord.Nodup := by
  have hdivc : ((List.range 256).map Instr.divc).Nodup := List.nodup_range.map fun _ _ => Instr.divc.inj
  simp [commandsWithWord, hdivc]

/-- No two commands share a word. -/
theorem encode_injOn {i j : Instr} (hi : WellFormed i = true) (hj : WellFormed j = true) (h : encode i = encode j) :
    i = j :=
  Decoded.command.inj (by rw [← decode_encode hi, h, decode_encode hj])

/-- Settles O5: the words of the 3 + 256 commands, which decoding tells apart. -/
theorem legalWordsNumber259 : Obligations.LegalWordsNumber259 := by
  refine ⟨commandsWithWord.map encode, ?_, by simp [commandsWithWord], fun w => ?_⟩
  · exact commandsWithWord_nodup.map_on fun i hi j hj =>
      encode_injOn (mem_commandsWithWord.mp hi) (mem_commandsWithWord.mp hj)
  · simp only [List.mem_map, mem_commandsWithWord, decode_eq_command_iff]

end Sys2Proof
end

section
/-! Command words written to CMD (30_encoding.md R60, R65, R67): O4, O6, O8. -/

namespace Sys2Proof.Machine

variable {s t : State}

/-! ### One word, delivered -/

/-- While busy a word is dropped before it is decoded (30_encoding.md R60). -/
theorem deliver_busy (w : Word) (h : s.busy = true) : deliver w s = .next s := if_pos h

theorem deliver_command {w : Word} {i : Instr} (h : s.busy = false) (hd : decode w = .command i) :
    deliver w s = exec i s := by rw [deliver_idle w s h, hd]

theorem deliver_illegal {w : Word} {why : Illegal} (h : s.busy = false) (hd : decode w = .illegal why) :
    deliver w s = .next (s.raise .illegalCommand) := by rw [deliver_idle w s h, hd]

theorem exec_divc_noEntry {a : Nat} (h : s.busy = false) (ha : 254 < a) :
    exec (.divc a) s = .next (s.raise .invalidRadius) := by
  rw [exec, execDivc, ifNotBusy_idle _ _ h, if_pos ha]

theorem CommandEffect.errcode_of_divc {a : Nat} (h : CommandEffect s (.divc a) t) (hb : s.busy = false)
    (ha : a ≤ 254) : t.errcode = .none := by
  cases h with
  | dropped _ hbusy => simp [hb] at hbusy
  | table => rfl
  | noEntry _ _ houtside => omega

/-- Settles O4: the reserved fields and the unassigned operation codes, and the two ways CMD takes such a word. -/
theorem illegalWordsAndTheirEffect : Obligations.IllegalWordsAndTheirEffect := fun w =>
  ⟨decode_illegal_iff, fun ⟨_, hillegal⟩ _ => ⟨fun hb => deliver_illegal hb hillegal, deliver_busy w⟩⟩

/-- Settles O6: every index of 8 bits has a word, and 255 alone has no entry of the table. -/
theorem divcWords : Obligations.DivcWords := by
  have hdecode : ∀ a, a ≤ 255 → decode (BitVec.ofNat 32 (0x00000002 + a * 0x100)) = .command (.divc a) :=
    fun a ha => encode_divc ha ▸ decode_encode (wellFormed_divc ha)
  refine ⟨fun a ha => ⟨encode_divc ha, hdecode a ha⟩, fun s hb => ⟨?_, fun a ha t ht => ?_⟩⟩
  · exact (deliver_command hb (hdecode 255 le_rfl)).trans (exec_divc_noEntry hb (by decide))
  · rw [deliver_command hb (hdecode a (by omega))] at ht
    exact (exec_effect _ _ _ ht).errcode_of_divc hb ha

/-! ### From a step to a command -/

/-- A write to CMD, out of reset, delivers its word (30_encoding.md R60). -/
theorem step_writeCmd {v : Word} {rest : List Event} (hev : s.events = .write s.platform.regBase 32 v :: rest)
    (hr : s.resetIn = false) : step s = deliver v { s with events := rest } :=
  (step_event s _ rest hev nofun).trans (act_write { s with events := rest } .cmd v hr)

/-- Settles O8: the step delivers the word, and what `deliver` does turns on busy and on what the word decodes to. -/
theorem stepRunsTheDecodedCommand : Obligations.StepRunsTheDecodedCommand := by
  intro s v rest hev hr
  rw [step_writeCmd hev hr]
  exact ⟨fun hb => deliver_busy v hb,
    fun hb => ⟨fun _ hcommand => deliver_command hb hcommand, fun _ hillegal => deliver_illegal hb hillegal⟩⟩

end Sys2Proof.Machine
end

section
/-! WAIT, a silent HOST, and the end of a run (30_encoding.md R71, 70_reset_and_hazards.md R181): O60. -/

namespace Sys2Proof.Machine

variable {s t : State}

/-! ### Steps without a HOST statement, or with WAIT -/

/-- WAIT lets the ENGINE move while the block is busy (30_encoding.md R71). -/
theorem step_wait_busy {rest : List Event} (hev : s.events = .wait :: rest) (hr : s.resetIn = false)
    (hb : s.busy = true) : step s = engineTurn s := by
  simp [step, turn, hev, hr, hb]

/-- WAIT reads STATUS once when the block is not busy (30_encoding.md R71). -/
theorem step_wait_idle {rest : List Event} (hev : s.events = .wait :: rest) (hr : s.resetIn = false)
    (hb : s.busy = false) : step s = .next (hostRead .status { s with events := rest }) := by
  simp [step, turn, hev, hb, act, outOfReset_released, hr]

/-- Once a run is over, turns of the ENGINE only take themselves off the list of events. -/
theorem step_of_runOver (h : s.runOver = true) (hev : ∀ e ∈ s.events, e = .engine) :
    step s = .next { s with events := s.events.tail } := by
  obtain ⟨hb, -⟩ := s.runOver_iff.mp h
  cases hs : s.events with
  | nil =>
    rw [step_silent s hs, engineTurn_idle s hb, List.tail_nil, ← hs]
  | cons e rest =>
    have he : e = .engine := hev e (hs ▸ List.mem_cons_self)
    rw [step_engine s rest (he ▸ hs)]
    exact engineTurn_idle _ hb

theorem State.runOver_tail (h : s.runOver = true) :
    ({ s with events := s.events.tail } : State).runOver = true := by
  obtain ⟨hb, hhost⟩ := s.runOver_iff.mp h
  exact (State.runOver_iff _).mpr ⟨hb, fun e he => hhost e (List.mem_of_mem_tail he)⟩

/-! ### The end state -/

theorem State.endState_reg (s : State) (r : HostReg) : s.endState.reg r = s.readReg r := by cases r <;> rfl

theorem claimable_iff (lent addr : Nat) : claimable lent addr = true ↔ lent ≤ addr ∨ addr % 4 = 3 := by
  simp [claimable]

/-- The end state shows a byte as the memory holds it: what it leaves out of the list is not claimable. -/
theorem State.endState_pixByte (s : State) (a : Nat) : s.endState.pixByte a =
    if a < s.platform.pixSize ∧ (s.loan ≤ a ∨ a % 4 = 3) then some (s.memRead a) else none := by
  have hclaimable : claimable s.loan a = true ↔ s.loan ≤ a ∨ a % 4 = 3 := claimable_iff s.loan a
  exact if_ctx_congr (and_congr_right' hclaimable)
    (fun ⟨_, hc⟩ => congrArg some (Pix.read_filter s.pix _ a (hclaimable.mpr hc))) (fun _ => rfl)

/-- The end state depends on the host registers, PIX, the loan and the platform only. -/
theorem State.endState_congr (hreg : ∀ r, t.readReg r = s.readReg r) (hpix : t.pix = s.pix) (hloan : t.loan = s.loan)
    (hplat : t.platform = s.platform) : t.endState = s.endState := by
  simp only [State.endState, hreg, hpix, hloan, hplat]

/-- Settles O60: each clause is a rule above or of the run's laws. -/
theorem waitReadsStatusWhenNotBusy : Obligations.WaitReadsStatusWhenNotBusy := by
  intro s
  refine ⟨fun hr rest hev => ⟨step_wait_busy hev hr, step_wait_idle hev hr⟩, step_silent s, step_engine s, ?_,
    fun h => ⟨fun n => run_over n s h, fun hev => ⟨_, step_of_runOver h hev, State.runOver_tail h, rfl⟩⟩,
    fun h n t => run_succ n s t h, s.endState_reg, s.endState_pixByte, fun _ => State.endState_congr⟩
  simp only [State.runOver_iff, Event.isHost_eq_false]

end Sys2Proof.Machine
end

section
/-! The DivisionTable (40_division_table.md R81 to R85) and the command that reads it (R87): O12, O13, O45, O46, O47. -/

namespace Sys2Proof.Machine

variable {r v S S' k : Nat} {s : State} {a : Nat}

/-! ### The entries -/

/-- The shift is the least `s` with `2^s > 256 * d`: what lies below it are the exponents that fail (R81). -/
theorem lt_tableShift_iff : k < tableShift r ↔ 2 ^ k ≤ 256 * divisor r := by
  have hd := divisor_pos r
  rw [tableShift, Nat.lt_succ_iff, Nat.le_log2 (by omega)]

theorem nine_le_tableShift (r : Nat) : 9 ≤ tableShift r :=
  lt_tableShift_iff.mpr (Nat.mul_le_mul_left 256 (divisor_pos r))

/-- A radius a blur can latch has a divisor of 4 or more (R82). -/
theorem eleven_le_tableShift (h : 1 ≤ r) : 11 ≤ tableShift r := by
  have hd : 2 * 2 ≤ divisor r := Nat.mul_le_mul (by omega) (by omega)
  exact lt_tableShift_iff.mpr (by omega)

/-- The multiplier is at least `2^shift / d`, which is above 256. -/
theorem le_tableMul (r : Nat) : 257 ≤ tableMul r :=
  Nat.lt_of_mul_lt_mul_right ((lt_pow_tableShift r).trans_le (pow_le_tableMul r))

theorem tableMul_excess_le (r : Nat) : tableMul r * divisor r - 2 ^ tableShift r ≤ divisor r - 1 := by
  have := tableMul_lt r
  omega

/-- `256 * d < 2^shift ≤ 512 * d` leaves one shift for a power of two, and then the division is exact (R82). -/
theorem tableMul_of_divisor_eq_pow (h : divisor r = 2 ^ k) : tableMul r = 512 := by
  have hd := divisor_pos r
  have hshift : k + 9 ≤ tableShift r := lt_tableShift_iff.mpr (by rw [h, pow_add]; omega)
  have hpow : 2 ^ (k + 9) ≤ 2 ^ tableShift r := Nat.pow_le_pow_right (by decide) hshift
  have hmul : 512 * divisor r ≤ tableMul r * divisor r := by
    calc 512 * divisor r = 2 ^ (k + 9) := by rw [h, pow_add, Nat.mul_comm]; rfl
      _ ≤ tableMul r * divisor r := hpow.trans (pow_le_tableMul r)
  exact (tableMul_le r).antisymm (Nat.le_of_mul_le_mul_right hmul hd)

/-- The square roots of the powers of two up to `2^15`, rounded down. -/
def rootOfPow (k : Nat) : Nat := [1, 1, 2, 2, 4, 5, 8, 11, 16, 22, 32, 45, 64, 90, 128, 181].getD k 0

/-- The next square after `2^k` exceeds it by one part in 511 or more. -/
theorem rootOfPow_spec : ∀ k < 16, rootOfPow k * rootOfPow k ≤ 2 ^ k ∧
    2 ^ (k + 9) ≤ 511 * ((rootOfPow k + 1) * (rootOfPow k + 1)) := by decide

/-- A square less than one part in 511 above a power of two does not exceed it: the next square is further away. -/
theorem sq_le_pow_of_lt {n : Nat} (hk : k < 16) (h : 511 * (n * n) < 2 ^ (k + 9)) : n * n ≤ 2 ^ k := by
  obtain ⟨hroot, hnext⟩ := rootOfPow_spec k hk
  have hn : n < rootOfPow k + 1 := Nat.mul_self_lt_mul_self_iff.mp (by omega)
  exact (Nat.mul_self_le_mul_self (Nat.le_of_lt_succ hn)).trans hroot

/-- The multiplier 512 says `511 * d < 2^shift ≤ 512 * d`; no square of the table but a power of two is that close to
one (R82). -/
theorem divisor_eq_pow_of_tableMul (hr : r ≤ 254) (h : tableMul r = 512) : ∃ k, divisor r = 2 ^ k := by
  obtain ⟨k, hk⟩ := Nat.exists_eq_add_of_le' (nine_le_tableShift r)
  have hle := tableShift_le r hr
  have hlow := pow_tableShift_le r
  have hhigh := tableMul_lt r
  rw [hk] at hle hlow hhigh
  rw [h] at hhigh
  have hpow : divisor r ≤ 2 ^ k := sq_le_pow_of_lt (by omega) (show 511 * divisor r < 2 ^ (k + 9) by omega)
  exact ⟨k, hpow.antisymm (by rw [pow_add] at hlow; omega)⟩

theorem tableMul_eq_iff (hr : r ≤ 254) : tableMul r = 512 ↔ ∃ k, divisor r = 2 ^ k :=
  ⟨divisor_eq_pow_of_tableMul hr, fun ⟨_, h⟩ => tableMul_of_divisor_eq_pow h⟩

/-- Settles O45: the shift is the least with `256 * d < 2^shift`, the multiplier the least with `2^shift ≤ mul * d`. -/
theorem tableEntryBounds : Obligations.TableEntryBounds := fun r hr =>
  ⟨lt_pow_tableShift r, pow_tableShift_le r, le_tableMul r, tableMul_le r, nine_le_tableShift r, tableShift_le r hr,
    pow_le_tableMul r, tableMul_excess_le r, tableMul_eq_iff hr, eleven_le_tableShift⟩

/-! ### The fixed-point divide -/

theorem fpdiv_mono (h : S ≤ S') : fpdiv S r ≤ fpdiv S' r := Nat.div_le_div_right (Nat.mul_le_mul_right _ h)

/-- The multiplier is at least `2^shift / d`, so the divide never falls short of a multiple (R84). -/
theorem le_fpdiv (h : v * divisor r ≤ S) : v ≤ fpdiv S r := by
  refine (Nat.le_div_iff_mul_le (Nat.two_pow_pos _)).mpr ?_
  calc v * 2 ^ tableShift r ≤ v * (tableMul r * divisor r) := Nat.mul_le_mul_left _ (pow_le_tableMul r)
    _ = v * divisor r * tableMul r := by ring
    _ ≤ S * tableMul r := Nat.mul_le_mul_right _ h

/-- The excess of the multiplier, below `d`, adds less than 1 to the quotient of a window's total (R85). -/
theorem fpdiv_lt (hS : S ≤ 255 * divisor r) (h : S + divisor r ≤ v * divisor r) : fpdiv S r < v := by
  have hd := divisor_pos r
  have hexcess : S < 2 ^ tableShift r := by have := lt_pow_tableShift r; omega
  refine Nat.div_lt_of_lt_mul (Nat.lt_of_mul_lt_mul_right (a := divisor r) ?_)
  calc S * tableMul r * divisor r = S * (tableMul r * divisor r) := Nat.mul_assoc ..
    _ ≤ S * (2 ^ tableShift r + divisor r) := Nat.mul_le_mul_left _ (tableMul_lt r).le
    _ = S * 2 ^ tableShift r + S * divisor r := Nat.mul_add ..
    _ < S * 2 ^ tableShift r + 2 ^ tableShift r * divisor r := by gcongr
    _ = 2 ^ tableShift r * (S + divisor r) := by ring
    _ ≤ 2 ^ tableShift r * (v * divisor r) := Nat.mul_le_mul_left _ h
    _ = 2 ^ tableShift r * v * divisor r := (Nat.mul_assoc ..).symm

/-- Settles O46: the divide reaches `v` and stays below `v + 1`. -/
theorem divideIsExactOnMultiples : Obligations.DivideIsExactOnMultiples := fun _ v _ hv =>
  (Nat.lt_succ_iff.mp (fpdiv_lt (Nat.mul_le_mul_right _ hv) (Nat.succ_mul v _).ge)).antisymm (le_fpdiv le_rfl)

/-- Settles O47: the total lies between two multiples of the divisor, and 255 times the divisor bounds it. -/
theorem divideIsFloorOrOneMore : Obligations.DivideIsFloorOrOneMore := by
  intro r S hr hS
  have hfloor : S < divisor r * (S / divisor r + 1) := Nat.lt_mul_div_succ S (divisor_pos r)
  have hupper : fpdiv S r < S / divisor r + 1 + 1 :=
    fpdiv_lt hS (by rw [Nat.succ_mul, Nat.mul_comm _ (divisor r)]; omega)
  have hmax : fpdiv S r ≤ fpdiv (255 * divisor r) r := fpdiv_mono hS
  exact ⟨le_fpdiv (Nat.div_mul_le_self ..), Nat.le_of_lt_succ hupper,
    hmax.trans_eq (divideIsExactOnMultiples r 255 hr le_rfl), fun _ => fpdiv_mono⟩

/-! ### DIVC -/

theorem exec_divc_entry (h : s.busy = false) (ha : a ≤ 254) :
    exec (.divc a) s = .next ((s.loadTable a).recordOk .idle) := by
  rw [exec, execDivc, ifNotBusy_idle _ _ h, if_neg (by omega)]

/-- An error touches STATUS alone (60_exceptions.md R146). -/
theorem State.raise_sameButRecord (s : State) (e : ErrCode) : SameButRecord s (s.raise e) :=
  ⟨⟨rfl, rfl, rfl, rfl, rfl⟩, ⟨rfl, rfl, rfl, rfl⟩, ⟨rfl, rfl, rfl, rfl, rfl⟩,
    ⟨rfl, rfl, rfl⟩, ⟨rfl, rfl, rfl⟩, rfl, fun _ => rfl⟩

theorem State.loadTable_recordOk_sameButRecord (s : State) (a : Nat) (p : Phase) :
    SameButRecord s ((s.loadTable a).recordOk p) :=
  ⟨⟨rfl, rfl, rfl, rfl, rfl⟩, ⟨rfl, rfl, rfl, rfl⟩, ⟨rfl, rfl, rfl, rfl, rfl⟩, ⟨rfl, rfl, rfl⟩, ⟨rfl, rfl, rfl⟩, rfl,
    fun _ => rfl⟩

/-- DT_SHIFT reads as the shift of the entry it was loaded with (R87). -/
theorem State.readReg_dtShift_loadTable (s : State) (p : Phase) (ha : a ≤ 254) :
    (((s.loadTable a).recordOk p).readReg .dtShift).toNat = tableShift a := by
  rw [State.readReg, State.recordOk_dtShift, State.loadTable_dtShift, BitVec.toNat_setWidth_of_le (by decide),
    divtabShift_toNat a ha]

/-- Settles O12: the registers hold the entry's two numbers, which fit them. -/
theorem divcReturnsTheEntry : Obligations.DivcReturnsTheEntry := by
  intro s a hb ha
  have hmul : ((s.loadTable a).recordOk .idle).dtMul.toNat = tableMul a := divtabMul_toNat a
  refine ⟨_, tableShift a, exec_divc_entry hb ha, lt_pow_tableShift a, fun k => lt_tableShift_iff.mp, hmul, ?_, ?_,
    s.readReg_dtShift_loadTable .idle ha, nine_le_tableShift a, tableShift_le a ha, rfl, rfl, rfl, rfl,
    s.loadTable_recordOk_sameButRecord a .idle⟩
  · exact hmul ▸ le_tableMul a
  · exact hmul ▸ tableMul_le a

/-- Settles O13: an index outside the table raises InvalidRadius, and an error leaves the table result alone. -/
theorem divcOutsideTheTable : Obligations.DivcOutsideTheTable := fun s _ hb ha =>
  ⟨_, exec_divc_noEntry hb ha, rfl, rfl, rfl, rfl, ⟨rfl, rfl⟩, s.raise_sameButRecord .invalidRadius⟩

end Sys2Proof.Machine
end

section
/-! The micro-steps on the window (41_sweep_kernel.md R92, R93, R96, R98): what SEED and SLIDE leave in each lane and in
PIX, as numbers: O30, O31, O44. -/

namespace Sys2Proof.Machine

variable {s s' t : State} {p : Pass} {c : Chan}

/-! ### Sums -/

theorem sum_Icc_one (n : Nat) (f : Nat → Nat) : ∑ i ∈ Finset.Icc 1 n, f i = ∑ j ∈ Finset.range n, f (j + 1) := by
  rw [← Finset.Ico_add_one_right_eq_Icc, Finset.sum_Ico_eq_sum_range]
  exact Finset.sum_congr rfl fun j _ => by rw [Nat.add_comm]

/-- The weights 1 .. n sum to `n (n + 1) / 2` (41_sweep_kernel.md R91). -/
theorem sum_weights (n : Nat) : ∑ j ∈ Finset.range n, (j + 1) = n * (n + 1) / 2 :=
  (Nat.div_eq_of_eq_mul_left two_pos (sum_succ_range n).symm).symm

/-! ### SEED -/

/-- The totals SEED writes are exact: they are those of the ring it fills, so they fit (10_state.md R23 to R25). -/
theorem seedLane_totals (r : Nat) (v : Nat → Byte) (old : Lane) (hr : r ≤ 254) :
    (seedLane r v old).outsum.toNat = (r + 1) * (v 0).toNat ∧
    (seedLane r v old).sum.toNat = (r + 1) * (r + 2) / 2 * (v 0).toNat +
      ∑ i ∈ Finset.Icc 1 r, (r + 1 - i) * (v i).toNat ∧
    (seedLane r v old).insum.toNat = ∑ i ∈ Finset.Icc 1 r, (v i).toNat := by
  obtain ⟨hsum, hout, hin⟩ := seedLane_consistent r v old hr
  have hring : ∀ j, j < 2 * r + 1 → (seedLane r v old).node ((0 + j) % (2 * r + 1)) = v (j - r) := fun j hj =>
    seedLane_window r v old j hr (by omega)
  have htrail : ∀ j ∈ Finset.range (r + 1), (seedLane r v old).node ((0 + j) % (2 * r + 1)) = v 0 := fun j hj => by
    have hj := Finset.mem_range.mp hj
    rw [hring j (by omega), Nat.sub_eq_zero_of_le (by omega)]
  have hlead : ∀ j ∈ Finset.range r, (seedLane r v old).node ((0 + (r + 1 + j)) % (2 * r + 1)) = v (j + 1) :=
    fun j hj => by
      have hj := Finset.mem_range.mp hj
      rw [hring _ (by omega), show r + 1 + j - r = j + 1 by omega]
  refine ⟨?_, ?_, ?_⟩
  · rw [hout, Finset.sum_congr rfl fun j hj => by rw [htrail j hj], Finset.sum_const, Finset.card_range, smul_eq_mul]
  · rw [hsum, weighted_split, ← sum_weights, Finset.sum_mul, sum_Icc_one]
    congr 1
    · exact Finset.sum_congr rfl fun j hj => by rw [htrail j hj]
    · exact Finset.sum_congr rfl fun j hj => by rw [hlead j hj, Nat.add_sub_add_right]
  · rw [hin, sum_Icc_one]
    exact Finset.sum_congr rfl fun j hj => by rw [hlead j hj]

/-- A coordinate at or above 0 is clamped at the end of the scanline only (20_memory.md R46). -/
theorem State.PassOk.sampleAddr_eq (h : s.PassOk p) (i : Nat) (c : Chan) : s.sampleAddr p i c =
    pixAddr s.latW.toNat p s.line.toNat (min i (s.lineLength p - 1)) c := by
  rw [State.sampleAddr, clampc_natCast _ _ h.lineLength_pos]

/-- Settles O30: each lane is built from its own channel's clamped samples. -/
theorem seedBuildsTheWindow : Obligations.SeedBuildsTheWindow := by
  intro s p hp h hs
  have hr := h.r.2
  refine ⟨_, h.engineTurn_seed hp hs, fun c => ⟨fun i => s.memRead (s.sampleAddr p i c), fun i => ?_, ?_⟩, rfl, ?_, rfl,
    rfl, s.seed_line p, ?_, ?_, ?_, ?_, s.seed_sameLatched p, s.seed_loan p, s.seed_memRead p⟩
  · exact congrArg s.memRead (h.sampleAddr_eq i c)
  · rw [State.seed_lane]
    obtain ⟨hout, hsum, hin⟩ := seedLane_totals s.latR.toNat (fun i => s.memRead (s.sampleAddr p i c)) (s.lane c) hr
    refine ⟨fun j hj => ?_, fun i hi1 hi2 => ?_, fun j => seedLane_node_above _ _ _ j, hout, hsum, hin⟩
    · rw [seedLane_node _ _ _ _ (by omega), if_pos hj]
    · rw [seedLane_node _ _ _ _ (by omega), if_neg (by omega), if_pos (by omega), Nat.add_sub_cancel_left]
  · rw [State.seed_tail, BitVec.toNat_ofNat, Nat.mod_eq_of_lt (by omega)]
  all_goals constructor <;> simp

/-! ### SLIDE -/

theorem State.output_toNat (s : State) (c : Chan) :
    (s.output c).toNat = min ((s.lane c).sum.toNat * s.latMul.toNat / 2 ^ s.latSh.toNat) 255 := by
  rw [State.output, BitVec.toNat_ofNat]
  exact Nat.mod_eq_of_lt (Nat.lt_succ_of_le (min_le_right _ _))

/-- Settles O31: the sample entering is read after the output is written, and no accumulator wraps. -/
theorem slideMovesTheWindow : Obligations.SlideMovesTheWindow := by
  intro s p hp h hs
  obtain ⟨hr1, hr2⟩ := h.r
  obtain ⟨-, hhead, htail, hlanes⟩ := h.sliding hs
  refine ⟨_, h.engineTurn_slide hp hs, fun c => ⟨s.output c, s.entering p c, _, s.output_toNat c,
    s.slide_memRead_out p c, rfl, ?_, ?_⟩, ?_, ?_, fun a => s.slide_memRead_other p a, s.slide_errcode p, ?_, ?_, ?_,
    s.slide_sameLatched p, s.slide_loan p⟩
  · rw [State.entering_eq, h.sampleAddr_eq]
    rfl
  · rw [State.slide_lane]
    obtain ⟨hout, hin, hsum⟩ := slideLane_totals _ _ _ _ (s.entering p c) hr1 hr2 hhead htail (hlanes c)
    refine ⟨?_, fun j hj => ?_, by omega, by omega, by omega⟩
    · rw [slideLane_node _ _ _ _ _ (by omega), if_pos rfl]
    · rw [slideLane_node _ _ _ _ _ (by omega), if_neg hj]
  · rw [State.slide_head, nextNode_toNat _ _ hr2]
  · rw [State.slide_tail, nextNode_toNat _ _ hr2]
  all_goals constructor <;> simp

/-- On the bytes of one channel SLIDE changes its output's byte only (20_memory.md R53, 41_sweep_kernel.md R98). -/
theorem State.slide_memRead_chan (s : State) (p : Pass) {a : Nat} (ha : a % 4 = c.idx) :
    (s.slide p).memRead a = if a = s.outAddr p c then s.output c else s.memRead a := by
  split
  next h => rw [h, State.slide_memRead_out]
  next h =>
    refine s.slide_memRead_other p a fun d hd => h ?_
    have hdc : d = c := Chan.idx_inj d c (by rw [← ha, hd, State.outAddr_mod])
    rw [hd, hdc]

/-! ### One channel alone (41_sweep_kernel.md R98) -/

/-- Two states that agree on the sequencer, the latched parameters, the cursors, the lane of channel `c` and the bytes
of channel `c`. -/
structure AgreeOn (c : Chan) (s s' : State) : Prop where
  position : SamePosition s s'
  latched : SameLatched s s'
  head : s.head = s'.head
  tail : s.tail = s'.tail
  lane : s.lane c = s'.lane c
  mem : ∀ a, a % 4 = c.idx → s.memRead a = s'.memRead a

theorem AgreeOn.outAddr (h : AgreeOn c s s') : s.outAddr p c = s'.outAddr p c := by
  rw [State.outAddr, State.outAddr, h.latched.latW, h.position.line, h.position.pos]

theorem AgreeOn.sampleAddr (h : AgreeOn c s s') (i : Nat) : s.sampleAddr p i c = s'.sampleAddr p i c := by
  rw [State.sampleAddr, State.sampleAddr, h.latched.latW, h.position.line, h.latched.lineLength]

theorem AgreeOn.sample (h : AgreeOn c s s') (i : Nat) :
    s.memRead (s.sampleAddr p i c) = s'.memRead (s'.sampleAddr p i c) := by
  rw [← h.sampleAddr, h.mem _ (s.sampleAddr_mod p i c)]

theorem AgreeOn.output (h : AgreeOn c s s') : s.output c = s'.output c := by
  rw [State.output, State.output, h.lane, h.latched.latMul, h.latched.latSh]

theorem AgreeOn.entering (h : AgreeOn c s s') : s.entering p c = s'.entering p c := by
  rw [State.entering_eq, State.entering_eq, h.output, h.sample, h.sampleAddr, h.outAddr, h.position.pos, h.latched.latR]

theorem AgreeOn.seed_lane (h : AgreeOn c s s') : (s.seed p).lane c = (s'.seed p).lane c := by
  rw [State.seed_lane, State.seed_lane, h.lane, h.latched.latR, funext (h.sample (p := p))]

theorem AgreeOn.slide_lane (h : AgreeOn c s s') : (s.slide p).lane c = (s'.slide p).lane c := by
  rw [State.slide_lane, State.slide_lane, h.lane, h.head, h.tail, h.entering]

theorem AgreeOn.slide_mem (h : AgreeOn c s s') (a : Nat) (ha : a % 4 = c.idx) :
    (s.slide p).memRead a = (s'.slide p).memRead a := by
  rw [s.slide_memRead_chan p ha, s'.slide_memRead_chan p ha, h.outAddr, h.output, h.mem a ha]

/-- Settles O44: both states take the same micro-step, and what it does to a channel reads only what they agree on. -/
theorem lanesAreIndependent : Obligations.LanesAreIndependent := by
  intro s s' t t' c hok hok' hphase hpos hlat hhead htail hlane hmem ht ht'
  have h : AgreeOn c s s' := ⟨hpos, hlat, hhead, htail, hlane, hmem⟩
  cases hp : s.phase.pass? with
  | none =>
    have hp' : s'.phase.pass? = none := hphase ▸ hp
    rw [engineTurn_idle s (by simp [State.busy, hp])] at ht
    rw [engineTurn_idle s' (by simp [State.busy, hp'])] at ht'
    cases ht
    cases ht'
    exact ⟨hlane, hmem⟩
  | some p =>
    have hp' : s'.phase.pass? = some p := hphase ▸ hp
    cases hs : s.sub with
    | seeding =>
      rw [(hok p hp).engineTurn_seed hp hs] at ht
      rw [(hok' p hp').engineTurn_seed hp' (hpos.sub.trans hs)] at ht'
      cases ht
      cases ht'
      refine ⟨h.seed_lane, fun a ha => ?_⟩
      rw [State.seed_memRead, State.seed_memRead, hmem a ha]
    | sliding =>
      rw [(hok p hp).engineTurn_slide hp hs] at ht
      rw [(hok' p hp').engineTurn_slide hp' (hpos.sub.trans hs)] at ht'
      cases ht
      cases ht'
      exact ⟨h.slide_lane, h.slide_mem⟩

end Sys2Proof.Machine
end

section
/-! One scanline (41_sweep_kernel.md R94, R95): the window invariant, and the reference result it leaves: O38, O39. -/

namespace Sys2Proof.Machine

variable {s u t : State} {p : Pass} {src : Chan → Nat → Byte}

/-! ### The window invariant -/

/-- The positions of a line have different addresses (20_memory.md R45). -/
theorem State.PassOk.pixAddr_inj (h : s.PassOk p) {j k : Nat} {c : Chan} (hj : j < s.lineLength p)
    (hk : k < s.lineLength p) (he : pixAddr s.latW.toNat p s.line.toNat j c = pixAddr s.latW.toNat p s.line.toNat k c) :
    j = k := by
  obtain ⟨-, hjk, -⟩ := scanlinesAreDisjoint s.latW.toNat p _ j _ k c c (by rintro rfl; exact ⟨hj, hk⟩)
    (by rintro rfl; exact ⟨h.line, h.line⟩) he
  exact hjk

/-- The ring gives the rest of R94: consistent accumulators are the totals of the window it holds. -/
theorem State.SlidingOk.lineInv (h : s.SlidingOk p) (running : s.phase.pass? = some p) (sliding : s.sub = .sliding)
    (pix : ∀ c j, j < s.lineLength p → s.lineSrc p s.line.toNat c j =
      if j < s.pos.toNat then refOut (src c) (s.lineLength p) s.latR.toNat j else src c j)
    (ring : ∀ c j, j ≤ 2 * s.latR.toNat →
      ((s.lane c).node ((s.head.toNat + j) % (2 * s.latR.toNat + 1))).toNat =
        refSample (src c) (s.lineLength p) ((s.pos.toNat : Int) + j - s.latR.toNat))
    (head : s.head.toNat = s.pos.toNat % (2 * s.latR.toNat + 1)) : s.LineInv p src where
  running := running
  sliding := sliding
  pix := pix
  ring := ring
  sum c := by
    rw [(h.lanes c).sum, refTotal]
    refine Finset.sum_congr rfl fun j hj => ?_
    rw [ring c j (Nat.lt_succ_iff.mp (Finset.mem_range.mp hj)), add_sub_assoc]
  outsum c := by
    rw [(h.lanes c).outsum]
    exact Finset.sum_congr rfl fun j hj => ring c j (by have := Finset.mem_range.mp hj; omega)
  insum c := by
    rw [(h.lanes c).insum]
    refine Finset.sum_congr rfl fun j hj => ?_
    rw [ring c _ (by have := Finset.mem_range.mp hj; omega)]
    congr 1
    omega
  head := head
  tail := by rw [h.tail, head, Nat.add_assoc, Nat.mod_add_mod, Nat.add_assoc]

/-- SEED establishes the invariant (R94): the ring holds the clamped samples around position 0. -/
theorem State.PassOk.seed_lineInv (h : s.PassOk p) (hp : s.phase.pass? = some p) :
    (s.seed p).LineInv p (s.lineSrc p s.line.toNat) := by
  have hlen := (s.seed_sameLatched p).lineLength p
  have hpos : (s.seed p).pos.toNat = 0 := rfl
  refine h.seed_slidingOk.lineInv (by rw [State.seed_phase, hp]) rfl (fun c j _ => ?_) (fun c j hj => ?_) ?_
  · rw [hpos, if_neg (Nat.not_lt_zero j)]
    simp [State.lineSrc]
  · rw [State.seed_latR] at hj ⊢
    rw [State.seed_lane, hlen]
    have hcoord : clampc ((j - s.latR.toNat : Nat) : Int) (s.lineLength p) =
        clampc (((s.seed p).pos.toNat : Int) + j - s.latR.toNat) (s.lineLength p) := by
      unfold clampc
      omega
    have hnode := seedLane_window s.latR.toNat (fun i => s.memRead (s.sampleAddr p i c)) (s.lane c) j h.r.2 hj
    rw [refSample, ← hcoord]
    exact congrArg BitVec.toNat hnode
  · exact (Nat.zero_mod _).symm

/-- The value SLIDE emits is the reference result at POS: SUM is the window's total (R90, R94). -/
theorem State.LineInv.output_eq (hi : s.LineInv p src) (h : s.PassOk p) (c : Chan) :
    s.output c = refOut (src c) (s.lineLength p) s.latR.toNat s.pos.toNat := by
  rw [State.output, hi.sum c, h.mul, h.sh, divtabMul_toNat, divtabShift_toNat _ h.r.2]
  rfl

/-- What SLIDE leaves in the line (R93): one more position holds the reference result. -/
theorem State.LineInv.slide_pix (hi : s.LineInv p src) (h : s.PassOk p) (c : Chan) {j : Nat} (hj : j < s.lineLength p) :
    (s.slide p).memRead (pixAddr s.latW.toNat p s.line.toNat j c) =
      if j < s.pos.toNat + 1 then refOut (src c) (s.lineLength p) s.latR.toNat j else src c j := by
  have hpos := (h.sliding hi.sliding).pos
  rw [s.slide_memRead_chan p (pixAddr_mod ..), State.outAddr]
  by_cases hjp : j = s.pos.toNat
  · rw [if_pos (by rw [hjp]), if_pos (by omega), hi.output_eq h, hjp]
  · have hold : s.memRead (pixAddr s.latW.toNat p s.line.toNat j c) = _ := hi.pix c j hj
    rw [if_neg fun he => hjp (h.pixAddr_inj hj hpos he), hold]
    exact if_congr (by omega) rfl rfl

/-- Inside a line the sample entering is still the source's: it lies beyond POS, where nothing is written yet (R94,
R96). -/
theorem State.LineInv.entering_eq (hi : s.LineInv p src) (h : s.PassOk p) (hn : s.pos.toNat + 1 < s.lineLength p)
    (c : Chan) : (s.entering p c).toNat =
      refSample (src c) (s.lineLength p) ((s.pos.toNat : Int) + 1 + s.latR.toNat) := by
  have hk := clampc_natCast (s.pos.toNat + s.latR.toNat + 1) (s.lineLength p) h.lineLength_pos
  have hlt : clampc ((s.pos.toNat + s.latR.toNat + 1 : Nat) : Int) (s.lineLength p) < s.lineLength p :=
    clampc_lt _ _ h.lineLength_pos
  have hpix := hi.pix c _ hlt
  rw [if_neg (by omega)] at hpix
  have hne : s.sampleAddr p (s.pos.toNat + s.latR.toNat + 1) c ≠ s.outAddr p c := fun he => by
    have := h.pixAddr_inj hlt (by omega) he
    omega
  rw [State.entering_eq, if_neg hne, refSample,
    show (s.pos.toNat : Int) + 1 + s.latR.toNat = ((s.pos.toNat + s.latR.toNat + 1 : Nat) : Int) by omega, ← hpix]
  rfl

/-- A position inside a line has a successor (10_state.md R20). -/
theorem State.slide_pos_toNat (hn : s.pos.toNat + 1 < s.lineLength p) :
    (s.slide p).pos.toNat = s.pos.toNat + 1 := by
  obtain ⟨-, -, -, hpos, -⟩ := s.slide_inside p hn
  have hlen : s.lineLength p < 2 ^ 32 := by cases p <;> exact BitVec.isLt _
  rw [hpos, BitVec.toNat_add]
  exact Nat.mod_eq_of_lt (by simpa using hn.trans hlen)

/-- Every SLIDE but the last of a line keeps the invariant (R94, R96). -/
theorem State.LineInv.slide (hi : s.LineInv p src) (h : s.PassOk p) (hn : s.pos.toNat + 1 < s.lineLength p) :
    (s.slide p).LineInv p src := by
  have hlen := (s.slide_sameLatched p).lineLength p
  have hnext := State.slide_pos_toNat hn
  obtain ⟨hphase, -, hline, -, hsub⟩ := s.slide_inside p hn
  have hhead := (h.sliding hi.sliding).head
  refine (h.slide_slidingOk hi.sliding (by omega)).lineInv (hphase ▸ hi.running) (hsub.trans hi.sliding)
    (fun c j hj => ?_) (fun c j hj => ?_) ?_
  · rw [hlen] at hj
    rw [State.lineSrc, hline, hnext, hlen, State.slide_latW, State.slide_latR, hi.slide_pix h c hj]
  · rw [State.slide_latR] at hj ⊢
    rw [State.slide_lane, State.slide_head, nextNode_toNat _ _ h.r.2, hlen, hnext,
      slideLane_stream _ _ _ _ _ _ h.r.2 hhead hj]
    by_cases hlast : j = 2 * s.latR.toNat
    · rw [hlast, Lane.stream_last, hi.entering_eq h hn]
      congr 1
      omega
    · rw [Lane.stream_old _ _ _ _ _ (by omega), hi.ring c (j + 1) (by omega)]
      congr 1
      omega
  · rw [State.slide_head, State.slide_latR, nextNode_toNat _ _ h.r.2, hi.head, hnext, Nat.mod_add_mod]

/-- Settles O38: R94 holds after SEED, and SLIDE carries it from one position to the next. -/
theorem windowInvariantOfALine : Obligations.WindowInvariantOfALine := by
  refine ⟨fun s p hp h hs => ⟨_, h.engineTurn_seed hp hs, s.seed_line p, rfl, h.seed_lineInv hp⟩,
    fun s p src h hi hn => ⟨_, h.engineTurn_slide hi.running hi.sliding, ?_, State.slide_pos_toNat hn, hi.slide h hn⟩⟩
  obtain ⟨-, -, hline, -⟩ := s.slide_inside p hn
  exact hline

/-! ### Runs of the ENGINE -/

theorem engineRun_succ (k : Nat) (h : engineTurn s = .next t) : engineRun (k + 1) s = engineRun k t := by
  rw [engineRun, h]

/-- A run in two parts. -/
theorem engineRun_add (a b : Nat) (h : engineRun a s = .next u) : engineRun (a + b) s = engineRun b u := by
  induction a generalizing s with
  | zero =>
    cases h
    rw [Nat.zero_add]
  | succ a ih =>
    cases ht : engineTurn s with
    | next t =>
      rw [engineRun_succ a ht] at h
      rw [Nat.succ_add, engineRun_succ _ ht, ih h]
    | fault f =>
      rw [engineRun, ht] at h
      cases h
    | refused x =>
      rw [engineRun, ht] at h
      cases h

/-! ### From the start of a line to its end -/

/-- Every byte outside the line that `s` is on reads in `t` as it does in `s`. -/
def SameOffLine (s t : State) (p : Pass) : Prop :=
  ∀ a, (∀ c q, q < s.lineLength p → a ≠ pixAddr s.latW.toNat p s.line.toNat q c) → t.memRead a = s.memRead a

/-- `u` is a later state on the line that starts with SEED in `s`: the pass is in range, R94 holds of the line as `s`
has it, and only the line has been written. -/
structure OnLineOf (s u : State) (p : Pass) : Prop where
  pass : u.PassOk p
  inv : u.LineInv p (s.lineSrc p s.line.toNat)
  latched : SameLatched s u
  line : u.line = s.line
  off : SameOffLine s u p

theorem State.PassOk.onLineOf_seed (h : s.PassOk p) (hp : s.phase.pass? = some p) : OnLineOf s (s.seed p) p where
  pass := h.seed_engineOk hp p (by rw [State.seed_phase, hp])
  inv := h.seed_lineInv hp
  latched := s.seed_sameLatched p
  line := s.seed_line p
  off a _ := s.seed_memRead p a

/-- A SLIDE writes inside its line. -/
theorem OnLineOf.slide_off (h : OnLineOf s u p) : SameOffLine s (u.slide p) p := by
  intro a ha
  rw [← h.off a ha]
  refine u.slide_memRead_other p a fun c => ?_
  have hpos := (h.pass.sliding h.inv.sliding).pos
  rw [h.latched.lineLength] at hpos
  rw [State.outAddr, h.latched.latW, h.line]
  exact ha c _ hpos

theorem OnLineOf.slide (h : OnLineOf s u p) (hn : u.pos.toNat + 1 < u.lineLength p) : OnLineOf s (u.slide p) p := by
  obtain ⟨hphase, -, hline, -⟩ := u.slide_inside p hn
  have hl := u.slide_sameLatched p
  exact {
    pass := h.pass.slide_engineOk h.inv.running h.inv.sliding p (hphase ▸ h.inv.running)
    inv := h.inv.slide h.pass hn
    latched := ⟨hl.latW.trans h.latched.latW, hl.latH.trans h.latched.latH, hl.latR.trans h.latched.latR,
      hl.latMul.trans h.latched.latMul, hl.latSh.trans h.latched.latSh⟩
    line := hline.trans h.line
    off := h.slide_off }

/-- A run that is still on the line goes on with a SLIDE. -/
theorem OnLineOf.engineRun_slide {k : Nat} (h : OnLineOf s u p) (hrun : engineRun k s = .next u) :
    engineRun (k + 1) s = .next (u.slide p) :=
  (engineRun_add k 1 hrun).trans (engineRun_succ 0 (h.pass.engineTurn_slide h.inv.running h.inv.sliding))

/-- After SEED and `q` SLIDEs the ENGINE is at position `q` of the line. -/
theorem State.PassOk.engineRun_line (h : s.PassOk p) (hp : s.phase.pass? = some p) (hs : s.sub = .seeding) (q : Nat)
    (hq : q < s.lineLength p) : ∃ u, engineRun (1 + q) s = .next u ∧ u.pos.toNat = q ∧ OnLineOf s u p := by
  induction q with
  | zero => exact ⟨_, engineRun_succ 0 (h.engineTurn_seed hp hs), rfl, h.onLineOf_seed hp⟩
  | succ q ih =>
    obtain ⟨u, hrun, hpos, hu⟩ := ih (by omega)
    have hn : u.pos.toNat + 1 < u.lineLength p := by rwa [hu.latched.lineLength, hpos]
    exact ⟨u.slide p, hu.engineRun_slide hrun, by rw [State.slide_pos_toNat hn, hpos], hu.slide hn⟩

/-- The last SLIDE of a line leaves the reference result at every position (R95). -/
theorem OnLineOf.slide_last (h : OnLineOf s u p) (hlast : u.pos.toNat + 1 = s.lineLength p) (c : Chan) {q : Nat}
    (hq : q < s.lineLength p) : (u.slide p).memRead (pixAddr s.latW.toNat p s.line.toNat q c) =
      refOut (s.lineSrc p s.line.toNat c) (s.lineLength p) s.latR.toNat q := by
  have hpix := h.inv.slide_pix h.pass c (j := q) (by rwa [h.latched.lineLength])
  rwa [h.latched.latW, h.line, h.latched.lineLength, h.latched.latR, hlast, if_pos hq] at hpix

/-- Settles O39: SEED and N - 1 SLIDEs keep R94, and the last SLIDE writes the last position. -/
theorem scanlineHoldsTheReferenceResult : Obligations.ScanlineHoldsTheReferenceResult := by
  intro s p hp h hs
  obtain ⟨n, hn⟩ := Nat.exists_eq_add_of_le' h.lineLength_pos
  obtain ⟨u, hrun, hpos, hu⟩ := h.engineRun_line hp hs n (by omega)
  refine ⟨u.slide p, ?_, fun c q => hu.slide_last (by rw [hpos, hn]) c, hu.slide_off⟩
  rw [hn]
  exact hu.engineRun_slide hrun

end Sys2Proof.Machine
end

section
/-! The sweep as arithmetic (41_sweep_kernel.md R91, R99): O48, O49, O50, O51. -/

namespace Sys2Proof.Machine

variable {src src' : Nat → Byte} {n r q lo hi : Nat}

/-! ### The weights -/

/-- Settles O48: the trailing weights are 1 .. r+1, the leading weights r .. 1, and a sample is at most 255. -/
theorem windowWeightsSumToTheDivisor : Obligations.WindowWeightsSumToTheDivisor := by
  intro r
  refine ⟨fun src n q => weighted_bytes_le_divisor r _, weight_sum r, ?_, ?_⟩
  · rw [← sum_weights (r + 1)]
    refine Finset.sum_congr rfl fun j hj => ?_
    have := Finset.mem_range.mp hj
    unfold weight
    omega
  · rw [← sum_weights r, ← Finset.sum_range_reflect]
    refine Finset.sum_congr rfl fun j hj => ?_
    have := Finset.mem_range.mp hj
    unfold weight
    omega

/-! ### The total of a window and the output -/

theorem refTotal_le_divisor (src : Nat → Byte) (n r q : Nat) : refTotal src n r q ≤ 255 * divisor r :=
  weighted_bytes_le_divisor r _

/-- The output is the divide of the total: the clamp and the byte change nothing (41_sweep_kernel.md R97). -/
theorem refOut_toNat (src : Nat → Byte) (n q : Nat) (hr : r ≤ 254) :
    (refOut src n r q).toNat = fpdiv (refTotal src n r q) r := by
  obtain ⟨-, hlt, hclamp⟩ := productAndOutputFit _ r hr (refTotal_le_divisor src n r q)
  rw [refOut, hclamp, BitVec.toNat_ofNat, Nat.mod_eq_of_lt hlt]

/-- A lower bound of the window's samples, times the divisor, is one of the total. -/
theorem mul_divisor_le_refTotal (h : ∀ k : Int, -(r : Int) ≤ k → k ≤ r → lo ≤ refSample src n (q + k)) :
    lo * divisor r ≤ refTotal src n r q := by
  rw [divisor, ← weight_sum, Nat.mul_comm, Finset.sum_mul]
  refine Finset.sum_le_sum fun j hj => Nat.mul_le_mul_left _ (h _ ?_ ?_) <;>
  · have := Finset.mem_range.mp hj
    omega

/-- An upper bound of the window's samples, times the divisor, is one of the total. -/
theorem refTotal_le_mul_divisor (h : ∀ k : Int, -(r : Int) ≤ k → k ≤ r → refSample src n (q + k) ≤ hi) :
    refTotal src n r q ≤ hi * divisor r := by
  rw [divisor, ← weight_sum, Nat.mul_comm, Finset.sum_mul]
  refine Finset.sum_le_sum fun j hj => Nat.mul_le_mul_left _ (h _ ?_ ?_) <;>
  · have := Finset.mem_range.mp hj
    omega

/-- Settles O49: the divide takes a total between two multiples of the divisor to a value between the multipliers. -/
theorem outputStaysWithinItsWindow : Obligations.OutputStaysWithinItsWindow := by
  intro src n r q lo hi _ hr _ h
  have hlow : lo * divisor r ≤ refTotal src n r q := mul_divisor_le_refTotal fun k h1 h2 => (h k h1 h2).1
  have hhigh : refTotal src n r q ≤ hi * divisor r := refTotal_le_mul_divisor fun k h1 h2 => (h k h1 h2).2
  rw [refOut_toNat src n q hr]
  refine ⟨le_fpdiv hlow, Nat.le_of_lt_succ (fpdiv_lt (refTotal_le_divisor src n r q) ?_)⟩
  rw [Nat.succ_mul]
  exact Nat.add_le_add_right hhigh _

/-- Settles O50: weights are not negative, and the divide is monotone. -/
theorem sweepIsMonotone : Obligations.SweepIsMonotone := by
  intro src src' n r q _ hr hq h
  have htotal : refTotal src n r q ≤ refTotal src' n r q :=
    Finset.sum_le_sum fun j _ => Nat.mul_le_mul_left _ (h _ (clampc_lt _ n (by omega)))
  rw [refOut_toNat src n q hr, refOut_toNat src' n q hr]
  exact fpdiv_mono htotal

/-! ### Reversal -/

theorem clampc_reverse (p : Int) (h : 1 ≤ n) : clampc ((n : Int) - 1 - p) n = n - 1 - clampc p n := by
  unfold clampc
  omega

/-- The total of the reversed line sums the same samples in the opposite order, and the weights are symmetric. -/
theorem refTotal_reverse (src : Nat → Byte) (r : Nat) (hq : q < n) :
    refTotal (fun j => src (n - 1 - j)) n r q = refTotal src n r (n - 1 - q) := by
  rw [refTotal, refTotal, ← Finset.sum_range_reflect]
  refine Finset.sum_congr rfl fun j hj => ?_
  have hj := Finset.mem_range.mp hj
  have hk : ((2 * r + 1 - 1 - j : Nat) : Int) - r = -((j : Int) - r) := by omega
  have hweight : weight r (-((j : Int) - r)) = weight r ((j : Int) - r) := by rw [weight, weight, Int.natAbs_neg]
  have hcoord : ((n - 1 - q : Nat) : Int) + ((j : Int) - r) = (n : Int) - 1 - ((q : Int) + -((j : Int) - r)) := by omega
  rw [hk, hweight, refSample, refSample, hcoord, clampc_reverse _ (by omega)]

/-- Settles O51: the output is a function of the total. -/
theorem sweepCommutesWithReversal : Obligations.SweepCommutesWithReversal := fun src n r q _ _ hq => by
  rw [refOut, refOut, refTotal_reverse src r hq]

end Sys2Proof.Machine
end

section
/-! The two passes (42_blur_command.md R112, R113, R115, R117): a pass sweeps its lines one after the other: O40, O41. -/

namespace Sys2Proof.Machine

variable {s t u v : State} {p : Pass} {n : Nat}

theorem SameLatched.trans (h : SameLatched s t) (h' : SameLatched t u) : SameLatched s u :=
  ⟨h'.latW.trans h.latW, h'.latH.trans h.latH, h'.latR.trans h.latR, h'.latMul.trans h.latMul,
    h'.latSh.trans h.latSh⟩

theorem Phase.pass?_eq_row {ph : Phase} : ph.pass? = some .row ↔ ph = .rowpass := by cases ph <;> simp [Phase.pass?]

theorem Phase.pass?_eq_col {ph : Phase} : ph.pass? = some .col ↔ ph = .colpass := by cases ph <;> simp [Phase.pass?]

/-- The STATUS word is a function of its three fields (10_state.md R12). -/
theorem State.statusWord_of_record {ph : Phase} {res : Result} {err : ErrCode} (hp : s.phase = ph) (hr : s.result = res)
    (he : s.errcode = err) : s.statusWord =
      BitVec.ofNat 32 (err.code.toNat * 2 ^ 4 + res.code.toNat * 2 ^ 2 + ph.code.toNat) := by
  rw [State.statusWord, hp, hr, he]

/-- The reference result looks at the samples of its scanline only (41_sweep_kernel.md R90). -/
theorem refOut_congr {src src' : Nat → Byte} (r q : Nat) (hn : 1 ≤ n) (h : ∀ j < n, src j = src' j) :
    refOut src n r q = refOut src' n r q := by
  have hsample : ∀ x, refSample src n x = refSample src' n x := fun x => by
    rw [refSample, refSample, h _ (clampc_lt x n hn)]
  simp only [refOut, refTotal, hsample]

/-! ### ERRCODE -/

/-- No turn of the ENGINE writes ERRCODE (60_exceptions.md R144). -/
theorem engineTurn_errcode (h : engineTurn s = .next t) : t.errcode = s.errcode := by
  obtain ⟨-, rfl⟩ | ⟨p, -, -, ⟨-, -, rfl⟩ | ⟨-, -, rfl⟩⟩ := engineTurn_cases s t h
  · rfl
  · exact s.seed_errcode p
  · exact s.slide_errcode p

theorem engineRun_errcode {k : Nat} (h : engineRun k s = .next t) : t.errcode = s.errcode := by
  induction k generalizing s with
  | zero =>
    cases h
    rfl
  | succ k ih =>
    rw [engineRun] at h
    split at h
    next u hu => exact (ih h).trans (engineTurn_errcode hu)
    next => cases h
    next => cases h

/-! ### The lines of a pass -/

/-- `t` holds the reference result of each of the first `n` lines of `s`, and reads as `s` everywhere else. -/
structure LinesSwept (s t : State) (p : Pass) (n : Nat) : Prop where
  result : ∀ l c q, l < n → q < s.lineLength p →
    t.memRead (pixAddr s.latW.toNat p l q c) = refOut (s.lineSrc p l c) (s.lineLength p) s.latR.toNat q
  off : ∀ a, (∀ l c q, l < n → q < s.lineLength p → a ≠ pixAddr s.latW.toNat p l q c) → t.memRead a = s.memRead a

theorem LinesSwept.zero (s : State) (p : Pass) : LinesSwept s s p 0 := ⟨nofun, fun _ _ => rfl⟩

/-- Two lines of a pass share no byte (20_memory.md R45). -/
theorem State.pixAddr_ne_of_line (s : State) (p : Pass) {l l' q q' : Nat} {c c' : Chan} (hne : l ≠ l')
    (hl : l < s.lineCount p) (hl' : l' < s.lineCount p) (hq : q < s.lineLength p) (hq' : q' < s.lineLength p) :
    pixAddr s.latW.toNat p l q c ≠ pixAddr s.latW.toNat p l' q' c' := fun he =>
  hne (scanlinesAreDisjoint s.latW.toNat p l q l' q' c c' (by rintro rfl; exact ⟨hq, hq'⟩)
    (by rintro rfl; exact ⟨hl, hl'⟩) he).1

/-- A line that has not been swept is still the source's. -/
theorem LinesSwept.lineSrc_eq (h : LinesSwept s u p n) (hl : SameLatched s u) (hn : n < s.lineCount p) (c : Chan)
    {j : Nat} (hj : j < s.lineLength p) : u.lineSrc p n c j = s.lineSrc p n c j := by
  rw [State.lineSrc, hl.latW]
  exact h.off _ fun l c' q hlt hq => s.pixAddr_ne_of_line p hlt.ne' hn (hlt.trans hn) hj hq

/-- Sweeping the next line as R95 says adds it to the lines swept: it was still the source's, and the lines before it share
no byte with it. -/
theorem LinesSwept.succ (h : LinesSwept s u p n) (hl : SameLatched s u) (hline : u.line.toNat = n)
    (hn : n < s.lineCount p)
    (hresult : ∀ c q, q < u.lineLength p → v.memRead (pixAddr u.latW.toNat p u.line.toNat q c) =
      refOut (u.lineSrc p u.line.toNat c) (u.lineLength p) u.latR.toNat q)
    (hoff : SameOffLine u v p) : LinesSwept s v p (n + 1) := by
  simp only [SameOffLine, hl.lineLength, hl.latW, hl.latR, hline] at hresult hoff
  refine ⟨fun l c q hlt hq => ?_, fun a ha => ?_⟩
  · by_cases hln : l = n
    · subst hln
      rw [hresult c q hq]
      exact refOut_congr _ _ (by omega) fun j hj => h.lineSrc_eq hl hn c hj
    · rw [hoff _ fun c' q' hq' => s.pixAddr_ne_of_line p hln (by omega) hn hq hq', h.result l c q (by omega) hq]
  · rw [hoff a fun c q hq => ha n c q (by omega) hq, h.off a fun l c q hlt hq => ha l c q (by omega) hq]

/-- A pass writes no alpha byte and nothing outside the buffer (20_memory.md R53). -/
theorem LinesSwept.off_buffer (h : LinesSwept s t p n) (hn : n ≤ s.lineCount p) {a : Nat}
    (ha : a % 4 = 3 ∨ 4 * s.latW.toNat * s.latH.toNat ≤ a) : t.memRead a = s.memRead a := by
  refine h.off a fun l c q hl hq he => ?_
  have hmod := pixAddr_mod s.latW.toNat p l q c
  have hlt := s.pixAddr_lt p l q c (hl.trans_le hn) hq
  have := c.idx_lt
  omega

/-! ### From line to line -/

/-- `u` is a later state of the pass that starts with SEED in `s`: it is about to seed line `n`, the lines before it are
swept. -/
structure BetweenLines (s u : State) (p : Pass) (n : Nat) : Prop where
  running : u.phase.pass? = some p
  pass : u.PassOk p
  seeding : u.sub = .seeding
  line : u.line.toNat = n
  latched : SameLatched s u
  swept : LinesSwept s u p n

/-- `u` is the state before the last SLIDE of line `n`, and that SLIDE leaves this line swept too. -/
structure BeforeLastSlide (s u : State) (p : Pass) (n : Nat) : Prop where
  running : u.phase.pass? = some p
  pass : u.PassOk p
  sliding : u.sub = .sliding
  last : ¬ u.pos.toNat + 1 < u.lineLength p
  line : u.line.toNat = n
  latched : SameLatched s u
  swept : LinesSwept s (u.slide p) p (n + 1)

/-- SEED and N SLIDEs sweep line `n` (R95). -/
theorem BetweenLines.engineRun_line (h : BetweenLines s u p n) :
    ∃ v, engineRun (1 + s.lineLength p) u = .next (v.slide p) ∧ BeforeLastSlide s v p n := by
  obtain ⟨m, hm⟩ := Nat.exists_eq_add_of_le' h.pass.lineLength_pos
  obtain ⟨v, hrun, hpos, hv⟩ := h.pass.engineRun_line h.running h.seeding m (by omega)
  have hlast : v.pos.toNat + 1 = u.lineLength p := by rw [hpos, hm]
  have hn : n < s.lineCount p := h.line ▸ h.latched.lineCount p ▸ h.pass.line
  refine ⟨v, ?_, hv.inv.running, hv.pass, hv.inv.sliding, ?_, hv.line ▸ h.line, h.latched.trans hv.latched,
    h.swept.succ h.latched h.line hn (fun c q => hv.slide_last hlast c) hv.slide_off⟩
  · rw [← h.latched.lineLength, hm]
    exact hv.engineRun_slide hrun
  · rw [hv.latched.lineLength, hlast]
    exact lt_irrefl _

/-- A line that is not the last has a successor (10_state.md R20). -/
theorem State.slide_line_toNat (hlast : ¬ s.pos.toNat + 1 < s.lineLength p) (hl : s.line.toNat + 1 < s.lineCount p) :
    (s.slide p).line.toNat = s.line.toNat + 1 := by
  obtain ⟨-, -, hline, -⟩ := s.slide_nextLine p hlast hl
  have hcount : s.lineCount p < 2 ^ 32 := by cases p <;> exact BitVec.isLt _
  rw [hline, BitVec.toNat_add]
  exact Nat.mod_eq_of_lt (by simpa using hl.trans hcount)

/-- At the end of a line that is not the last the sequencer goes on to the next line (42_blur_command.md R114). -/
theorem BeforeLastSlide.nextLine (h : BeforeLastSlide s u p n) (hn : n + 1 < s.lineCount p) :
    BetweenLines s (u.slide p) p (n + 1) := by
  have hl : u.line.toNat + 1 < u.lineCount p := by rwa [h.line, h.latched.lineCount]
  obtain ⟨hphase, -, -, -, hsub⟩ := u.slide_nextLine p h.last hl
  have hrunning : (u.slide p).phase.pass? = some p := hphase ▸ h.running
  exact {
    running := hrunning
    pass := h.pass.slide_engineOk h.running h.sliding p hrunning
    seeding := hsub
    line := by rw [State.slide_line_toNat h.last hl, h.line]
    latched := h.latched.trans (u.slide_sameLatched p)
    swept := h.swept }

/-- The start of a pass. -/
theorem BetweenLines.start (hp : s.phase.pass? = some p) (h : s.PassOk p) (hs : s.sub = .seeding) (hline : s.line = 0) :
    BetweenLines s s p 0 := ⟨hp, h, hs, by rw [hline]; rfl, .refl s, .zero s p⟩

/-- After `n` lines the ENGINE is about to seed line `n`. -/
theorem BetweenLines.engineRun_lines (h : BetweenLines s s p 0) (hn : n < s.lineCount p) :
    ∃ u, engineRun (n * (1 + s.lineLength p)) s = .next u ∧ BetweenLines s u p n := by
  induction n with
  | zero => exact ⟨s, by rw [Nat.zero_mul, engineRun], h⟩
  | succ n ih =>
    obtain ⟨u, hrun, hu⟩ := ih (by omega)
    obtain ⟨v, hline, hv⟩ := hu.engineRun_line
    exact ⟨v.slide p, by rw [Nat.succ_mul, engineRun_add _ _ hrun, hline], hv.nextLine hn⟩

/-- A pass from its start to the end of its last SLIDE (R117). -/
theorem BetweenLines.engineRun_pass (h : BetweenLines s s p 0) :
    ∃ (u : State) (n : Nat), engineRun (s.lineCount p * (1 + s.lineLength p)) s = .next (u.slide p) ∧
      BeforeLastSlide s u p n ∧ n + 1 = s.lineCount p := by
  obtain ⟨n, hn⟩ := Nat.exists_eq_add_of_le' (Nat.one_le_of_lt h.pass.line)
  obtain ⟨v, hrun, hv⟩ := h.engineRun_lines (n := n) (by omega)
  obtain ⟨u, hline, hu⟩ := hv.engineRun_line
  exact ⟨u, n, by rw [hn, Nat.succ_mul, engineRun_add _ _ hrun, hline], hu, hn.symm⟩

theorem BeforeLastSlide.lastLine (h : BeforeLastSlide s u p n) (hn : n + 1 = s.lineCount p) :
    ¬ u.line.toNat + 1 < u.lineCount p := by
  rw [h.line, h.latched.lineCount, hn]
  exact lt_irrefl _

/-- Settles O40: the lines of the row pass are the rows, and its last SLIDE starts the column pass in range. -/
theorem rowPassSweepsEveryRow : Obligations.RowPassSweepsEveryRow := by
  intro s hphase h hs hline
  have hstart := BetweenLines.start (Phase.pass?_eq_row.mpr hphase) h hs hline
  obtain ⟨u, n, hrun, hu, hn⟩ := hstart.engineRun_pass
  obtain ⟨hphase', -, hline', -, hsub'⟩ := u.slide_row_last hu.last (hu.lastLine hn)
  have hpass := hu.pass.slide_engineOk hu.running hu.sliding .col (Phase.pass?_eq_col.mpr hphase')
  have hswept : LinesSwept s (u.slide .row) .row (s.lineCount .row) := hn ▸ hu.swept
  exact ⟨_, hrun, hphase', hline', hsub', hpass, hu.latched.trans (u.slide_sameLatched .row),
    fun x y c hx hy => hswept.result y c x hy hx, fun _ => hswept.off_buffer le_rfl⟩

/-- Settles O41: the lines of the column pass are the columns, and its last SLIDE completes with ERRCODE still 0. -/
theorem colPassSweepsEveryColumn : Obligations.ColPassSweepsEveryColumn := by
  intro s hphase h hs hline herr
  have hstart := BetweenLines.start (Phase.pass?_eq_col.mpr hphase) h hs hline
  obtain ⟨u, n, hrun, hu, hn⟩ := hstart.engineRun_pass
  obtain ⟨hphase', hresult', -⟩ := u.slide_col_last hu.last (hu.lastLine hn)
  have herr' := (engineRun_errcode hrun).trans herr
  have hswept : LinesSwept s (u.slide .col) .col (s.lineCount .col) := hn ▸ hu.swept
  exact ⟨_, hrun, hphase', hresult', State.statusWord_of_record hphase' hresult' herr',
    fun x y c hx hy => hswept.result x c y hx hy, fun _ => hswept.off_buffer le_rfl⟩

end Sys2Proof.Machine
end

section
/-! The BLUR command (42_blur_command.md R111, R114, R116, R118, R119): its answers, the sequencer, the whole effect, and
the alpha bytes: O14, O15, O32, O42, O56. -/

namespace Sys2Proof.Machine

variable {s t : State} {p : Pass} {e : Event} {m : Pix}

/-! ### What BLUR answers, test by test (R111) -/

theorem exec_blur_badRadius (h : s.busy = false) (hr : s.argR < 1 ∨ 254 < s.argR) :
    exec .blur s = .next (s.raise .invalidRadius) := by
  rw [exec, execBlur, ifNotBusy_idle _ _ h, if_pos hr]

theorem exec_blur_badLength (h : s.busy = false) (h1 : 1 ≤ s.argR) (h2 : s.argR ≤ 254)
    (hl : s.argW * s.argH * 4 ≠ s.argLen) : exec .blur s = .next (s.raise .bufferSizeMismatch) := by
  rw [exec, execBlur, ifNotBusy_idle _ _ h, if_neg (by omega), if_pos hl]

theorem exec_blur_empty (h : s.busy = false) (h1 : 1 ≤ s.argR) (h2 : s.argR ≤ 254)
    (hl : s.argW * s.argH * 4 = s.argLen) (he : s.argW = 0 ∨ s.argH = 0) :
    exec .blur s = .next (s.recordOk .done) := by
  rw [exec, execBlur, ifNotBusy_idle _ _ h, if_neg (by omega), if_neg (not_not.mpr hl), if_pos he]

theorem exec_blur_start (h : s.busy = false) (h1 : 1 ≤ s.argR) (h2 : s.argR ≤ 254)
    (hl : s.argW * s.argH * 4 = s.argLen) (hw : s.argW ≠ 0) (hh : s.argH ≠ 0) (hp : s.argLen ≤ s.platform.pixSize) :
    exec .blur s = .next s.startBlur := by
  rw [exec, execBlur, ifNotBusy_idle _ _ h, if_neg (by omega), if_neg (not_not.mpr hl), if_neg (by omega),
    if_neg (by omega)]

/-- A command that succeeds inside its CMD write touches STATUS alone (R119). -/
theorem State.recordOk_sameButRecord (s : State) (ph : Phase) : SameButRecord s (s.recordOk ph) :=
  ⟨⟨rfl, rfl, rfl, rfl, rfl⟩, ⟨rfl, rfl, rfl, rfl⟩, ⟨rfl, rfl, rfl, rfl, rfl⟩, ⟨rfl, rfl, rfl⟩, ⟨rfl, rfl, rfl⟩, rfl,
    fun _ => rfl⟩

/-- Settles O15: an empty image needs 0 bytes, and DONE leaves the ENGINE without a step. -/
theorem blurOfAnEmptyImage : Obligations.BlurOfAnEmptyImage := by
  intro s hb hempty
  have hsize : s.argW * s.argH * 4 = 0 := Nat.mul_eq_zero.mpr (.inl (Nat.mul_eq_zero.mpr hempty))
  refine ⟨fun h1 h2 => ⟨fun hlen => ?_, fun hlen => ?_⟩, exec_blur_badRadius hb⟩
  · exact ⟨_, exec_blur_empty hb h1 h2 (hsize.trans hlen.symm) hempty, rfl, rfl, rfl, rfl, engineTurn_idle _ rfl,
      ⟨rfl, rfl⟩, s.recordOk_sameButRecord .done⟩
  · exact exec_blur_badLength hb h1 h2 (hsize.trans_ne hlen.symm)

/-- Settles O14: BLUR passes its tests, and what it latches is what the fields held. -/
theorem blurStartsTheRowPass : Obligations.BlurStartsTheRowPass := by
  intro s hb h1 h2 hl hw hh hp
  have hR : (s.startBlur.latR.toNat : Int) = s.argR := State.latch_latR_toNat h1 h2
  have hRNat : s.argR.toNat = s.startBlur.latR.toNat := by omega
  exact ⟨_, exec_blur_start hb h1 h2 hl hw hh hp, rfl, rfl, rfl, rfl, rfl, rfl, hR, congrArg divtabMul hRNat,
    congrArg divtabShift hRNat, rfl, rfl, rfl, le_max_right _ _, ⟨rfl, rfl, rfl, rfl, rfl⟩, ⟨rfl, rfl, rfl, rfl⟩,
    ⟨rfl, rfl⟩, ⟨rfl, rfl, rfl⟩, fun _ => rfl⟩

/-! ### The sequencer (R114) -/

/-- Settles O32: the turn is the micro-step SUB names, and SLIDE leaves the sequencer in one of four ways. -/
theorem sequencerAdvances : Obligations.SequencerAdvances := by
  intro s _
  refine ⟨engineTurn_idle s, fun p hp h => ?_⟩
  cases hs : s.sub with
  | seeding =>
    exact ⟨_, h.engineTurn_seed hp hs, fun _ => ⟨rfl, s.seed_phase p, s.seed_line p, s.seed_pos p, s.seed_sub p⟩, nofun⟩
  | sliding =>
    refine ⟨_, h.engineTurn_slide hp hs, nofun, fun _ => ⟨rfl, fun hn => ?_, fun hn hl => ?_, fun hn hl => ⟨?_, ?_⟩⟩⟩
    · obtain ⟨hphase, hresult, hline, -, hsub⟩ := s.slide_inside p hn
      exact ⟨hphase, hresult, hline, State.slide_pos_toNat hn, hsub.trans hs⟩
    · obtain ⟨hphase, hresult, -, -, hsub⟩ := s.slide_nextLine p hn hl
      exact ⟨hphase, hresult, State.slide_line_toNat hn hl, hsub⟩
    · rintro rfl
      exact s.slide_row_last hn hl
    · rintro rfl
      obtain ⟨hphase, hresult, hline, hpos, hsub⟩ := s.slide_col_last hn hl
      exact ⟨hphase, hresult, s.slide_errcode .col, hline, hpos, hsub.trans hs⟩

/-! ### The whole effect (R116) -/

/-- Settles O42: BLUR starts the row pass, whose image the column pass sweeps. -/
theorem acceptedBlurLeavesTheBlurredImage : Obligations.AcceptedBlurLeavesTheBlurredImage := by
  rintro s w h r hb hrel rfl rfl hr hw hh hr1 hr2 hl hp
  have h1 : 1 ≤ s.argR := by rw [State.argR, ← hr]; omega
  have h2 : s.argR ≤ 254 := by rw [State.argR, ← hr]; omega
  have hR : s.startBlur.latR.toNat = r := by
    have hlatch : (s.startBlur.latR.toNat : Int) = s.argR := State.latch_latR_toNat h1 h2
    rw [State.argR, ← hr] at hlatch
    exact Int.ofNat_inj.mp hlatch
  have hw0 : s.argW ≠ 0 := Nat.ne_of_gt hw
  have hh0 : s.argH ≠ 0 := Nat.ne_of_gt hh
  obtain ⟨t₁, hrun₁, hphase₁, hline₁, hsub₁, hpass₁, hlat, hrows, hkept₁⟩ :=
    rowPassSweepsEveryRow s.startBlur rfl (State.startBlur_passOk hrel h1 h2 hl hw0 hh0 hp) rfl rfl
  obtain ⟨t, hrun, -, -, hstatus, hcols, hkept⟩ :=
    colPassSweepsEveryColumn t₁ hphase₁ hpass₁ hsub₁ hline₁ (engineRun_errcode hrun₁)
  rw [hlat.latW, hlat.latH, State.startBlur_latW, State.startBlur_latH] at hrun hcols hkept
  rw [hlat.latR, hR] at hcols
  rw [hR] at hrows
  exact ⟨_, t, exec_blur_start hb h1 h2 hl hw0 hh0 hp, (engineRun_add _ _ hrun₁).trans hrun, hstatus,
    fun x y c => t₁.memRead ((y * s.width.toNat + x) * 4 + c.idx), hrows, hcols,
    fun a ha => (hkept a ha).trans (hkept₁ a ha)⟩

/-! ### Alpha (R118) -/

/-- Only the HOST writes a byte at an address 3 modulo 4: an output has its channel's number there, and reset frees R, G
and B only (20_memory.md R53, 70_reset_and_hazards.md R171). -/
theorem PixEffect.read_alpha (h : PixEffect s e m) (he : ∀ a b, e ≠ .pixWrite a b) {a : Nat} (ha : a % 4 = 3) :
    Pix.read m a = s.memRead a := by
  cases h with
  | same => rfl
  | host a b => exact absurd rfl (he a b)
  | slide p =>
    refine s.slide_memRead_other p a fun c hc => c.idx_ne_three ?_
    rw [← s.outAddr_mod p c, ← hc, ha]
  | freed => exact (freedPix_read ..).trans (if_neg fun h => h.2 ha)

/-- Settles O56: neither a turn of the ENGINE nor another event than a HOST write reaches an alpha byte. -/
theorem onlyTheHostChangesAlpha : Obligations.OnlyTheHostChangesAlpha := by
  intro s t hstep hhost a ha
  obtain h | ⟨e, rest, hev, h⟩ := step_effect s t hstep
  · exact (engineTurn_pixEffect h).read_alpha nofun ha
  · exact h.pixEffect.read_alpha (fun a b he => hhost a b rest (he ▸ hev)) ha

end Sys2Proof.Machine
end

section
/-! The control commands and the HOST's register accesses (43_control_commands.md R130 to R132): O10, O11, O23, O24. -/

namespace Sys2Proof.Machine

variable {s t : State}

/-! ### NOP (R130) -/

/-- NOP answers the same state whichever way the test for busy goes. -/
theorem exec_nop (s : State) : exec .nop s = .next s := ite_self _

/-- Settles O10: the word 0 is NOP's, and NOP changes nothing. -/
theorem nopChangesNothing : Obligations.NopChangesNothing := ⟨decode_encode (i := .nop) rfl, exec_nop⟩

/-! ### ACK (R131) -/

theorem exec_ack_idle (h : s.busy = false) : exec .ack s = .next s.clearRecord := by
  rw [exec, execAck, ifNotBusy_idle _ _ h]

theorem exec_ack_busy (h : s.busy = true) : exec .ack s = .next s := ifNotBusy_busy _ _ h

/-- Clearing the record touches STATUS alone. -/
theorem State.clearRecord_sameButRecord (s : State) : SameButRecord s s.clearRecord :=
  ⟨⟨rfl, rfl, rfl, rfl, rfl⟩, ⟨rfl, rfl, rfl, rfl⟩, ⟨rfl, rfl, rfl, rfl, rfl⟩, ⟨rfl, rfl, rfl⟩, ⟨rfl, rfl, rfl⟩, rfl,
    fun _ => rfl⟩

theorem ifNotBusy_clearRecord (x : Out) (h : s.busy = false) : ifNotBusy s.clearRecord x = ifNotBusy s x :=
  (ifNotBusy_idle _ x rfl).trans (ifNotBusy_idle s x h).symm

/-- BLUR reads STATUS only to see that the block is not busy, and each state it answers has all three fields of STATUS
written by it: cleared before or not, they hold the same (R111). -/
theorem exec_blur_clearRecord (h : s.busy = false) : exec .blur s.clearRecord = exec .blur s :=
  ifNotBusy_clearRecord _ h

/-- DIVC as BLUR: it reads STATUS only to see that the block is not busy, and writes all of it (40_division_table.md R87). -/
theorem exec_divc_clearRecord (h : s.busy = false) (a : Nat) : exec (.divc a) s.clearRecord = exec (.divc a) s :=
  ifNotBusy_clearRecord _ h

/-- Settles O11: ACK clears the three fields of STATUS and keeps the rest, and neither BLUR nor DIVC sees the cleared
record. -/
theorem ackClearsTheRecord : Obligations.AckClearsTheRecord :=
  ⟨decode_encode (i := .ack) rfl, fun s =>
    ⟨fun hb => ⟨⟨_, exec_ack_idle hb, rfl, rfl, rfl, rfl, ⟨rfl, rfl⟩, s.clearRecord_sameButRecord⟩,
      exec_blur_clearRecord hb, exec_divc_clearRecord hb⟩, exec_ack_busy⟩⟩

/-! ### Writes of the register block (R132) -/

/-- Reading PIX looks at nothing but PIX. -/
theorem SameMem.of_pix (h : t.pix = s.pix) : SameMem s t := fun a => congrArg (Pix.read · a) h

theorem hostWrite_of_ne_cmd {r : HostReg} (h : r ≠ .cmd) (v : Word) (s : State) :
    hostWrite r v s = .next (s.storeReg r v) := if_neg h

/-- A register reads as before after a write of another register. -/
theorem State.readReg_storeReg_other (s : State) {r q : HostReg} (v : Word) (h : q ≠ r) :
    (s.storeReg r v).readReg q = s.readReg q := by
  cases r with
  | width => cases q with
    | width => exact absurd rfl h
    | _ => rfl
  | height => cases q with
    | height => exact absurd rfl h
    | _ => rfl
  | radius => cases q with
    | radius => exact absurd rfl h
    | _ => rfl
  | bufLen => cases q with
    | bufLen => exact absurd rfl h
    | _ => rfl
  | _ => rfl

/-- An argument register reads as the value written to it. -/
theorem State.readReg_storeReg_same (s : State) {r : HostReg} (v : Word)
    (h : r = .width ∨ r = .height ∨ r = .radius ∨ r = .bufLen) : (s.storeReg r v).readReg r = v := by
  obtain rfl | rfl | rfl | rfl := h <;> rfl

/-- A write of a read-only register changes nothing. -/
theorem State.storeReg_readOnly (s : State) {r : HostReg} (v : Word) (h : r = .status ∨ r = .dtMul ∨ r = .dtShift) :
    s.storeReg r v = s := by
  obtain rfl | rfl | rfl := h <;> rfl

/-- Settles O23: a write is a delivery at CMD and `storeReg` elsewhere, which writes one argument register or nothing. -/
theorem registerWrites : Obligations.RegisterWrites := by
  refine fun s r v => ⟨fun harg => ?_, fun hro => ?_, fun hcmd => if_pos hcmd⟩
  · have hne : r ≠ .cmd := by rintro rfl; simp at harg
    exact ⟨_, hostWrite_of_ne_cmd hne v s, s.readReg_storeReg_same v harg, fun q => s.readReg_storeReg_other v,
      by constructor <;> simp, by constructor <;> simp, by constructor <;> simp, by constructor <;> simp,
      by constructor <;> simp, s.storeReg_loan r v, .of_pix (s.storeReg_pix r v)⟩
  · have hne : r ≠ .cmd := by rintro rfl; simp at hro
    rw [hostWrite_of_ne_cmd hne, s.storeReg_readOnly v hro]

/-! ### Reads of the register block (R132) -/

/-- A read changes no register (R132). -/
theorem readReg_hostRead (r q : HostReg) (s : State) : (hostRead r s).readReg q = s.readReg q := by
  cases q <;> simp [hostRead, State.readReg, State.statusWord]

/-- Settles O24: the reply is the register's value, and beside it only the loan can change. -/
theorem registerReads : Obligations.RegisterReads := fun s r =>
  ⟨State.handBack_replies .., rfl, rfl, rfl, rfl, rfl, rfl, rfl, rfl, fun q => readReg_hostRead r q s,
    State.handBack_platform .., State.handBack_resetIn .., State.handBack_events .., State.handBack_draws ..,
    by constructor <;> simp [hostRead], by constructor <;> simp [hostRead], by constructor <;> simp [hostRead],
    .of_pix (State.handBack_pix ..), State.handBack_loan ..⟩

end Sys2Proof.Machine
end

section
/-! Exceptions (60_exceptions.md R141, R142, R144 to R146, R148, R149): which command raises which error, and what an error
leaves: O16, O17, O19, O20, O21, O33. -/

namespace Sys2Proof.Machine

variable {s t : State}

/-! ### The errors of BLUR and DIVC (R141, R142) -/

/-- The record BLUR leaves when it answers: an error of the radius, else of the length, else none (R145). -/
theorem exec_blur_record (hb : s.busy = false) (h : exec .blur s = .next t) :
    ((s.argR < 1 ∨ 254 < s.argR) ∧ t = s.raise .invalidRadius) ∨
    (1 ≤ s.argR ∧ s.argR ≤ 254 ∧ s.argW * s.argH * 4 ≠ s.argLen ∧ t = s.raise .bufferSizeMismatch) ∨
    (1 ≤ s.argR ∧ s.argR ≤ 254 ∧ s.argW * s.argH * 4 = s.argLen ∧ t.errcode = .none) := by
  cases exec_effect _ s t h with
  | dropped _ hbusy => simp [hb] at hbusy
  | badRadius _ hr => exact .inl ⟨hr, rfl⟩
  | badLength _ h1 h2 hl => exact .inr (.inl ⟨h1, h2, hl, rfl⟩)
  | empty _ h1 h2 hl => exact .inr (.inr ⟨h1, h2, hl, rfl⟩)
  | start _ h1 h2 hl => exact .inr (.inr ⟨h1, h2, hl, rfl⟩)

theorem exec_blur_invalidRadius_iff (hb : s.busy = false) (h : exec .blur s = .next t) :
    t.errcode = .invalidRadius ↔ s.argR < 1 ∨ 254 < s.argR := by
  obtain ⟨hr, rfl⟩ | ⟨h1, h2, -, rfl⟩ | ⟨h1, h2, -, herr⟩ := exec_blur_record hb h
  · exact iff_of_true rfl hr
  · exact iff_of_false nofun (by omega)
  · exact iff_of_false (by simp [herr]) (by omega)

theorem exec_blur_bufferSizeMismatch_iff (hb : s.busy = false) (h1 : 1 ≤ s.argR) (h2 : s.argR ≤ 254)
    (h : exec .blur s = .next t) : t.errcode = .bufferSizeMismatch ↔ s.argW * s.argH * 4 ≠ s.argLen := by
  obtain ⟨hr, -⟩ | ⟨-, -, hl, rfl⟩ | ⟨-, -, hl, herr⟩ := exec_blur_record hb h
  · omega
  · exact iff_of_true rfl hl
  · exact iff_of_false (by simp [herr]) (not_not.mpr hl)

theorem exec_divc_invalidRadius_iff {a : Nat} (hb : s.busy = false) (h : exec (.divc a) s = .next t) :
    t.errcode = .invalidRadius ↔ 254 < a := by
  cases exec_effect _ s t h with
  | dropped _ hbusy => simp [hb] at hbusy
  | table _ _ ha => exact iff_of_false nofun ha.not_gt
  | noEntry _ _ ha => exact iff_of_true rfl ha

/-- Settles O16: BLUR's first test is the radius, and of the indices with 8 bits 255 alone is outside the table. -/
theorem invalidRadiusExactlyOutsideTheRange : Obligations.InvalidRadiusExactlyOutsideTheRange := by
  refine fun s hb => ⟨fun t ht => ?_, exec_blur_badRadius hb, fun a ha t ht => ?_⟩
  · have hiff := exec_blur_invalidRadius_iff hb ht
    refine ⟨hiff, fun herr => ?_⟩
    rw [exec_blur_badRadius hb (hiff.mp herr)] at ht
    cases ht
    rfl
  · have ha : a < 256 := of_decide_eq_true ha
    rw [exec_divc_invalidRadius_iff hb ht]
    omega

/-- Settles O17: with a valid radius BLUR's first test is the length. -/
theorem bufferSizeMismatchExactly : Obligations.BufferSizeMismatchExactly := fun _ hb h1 h2 =>
  ⟨exec_blur_badLength hb h1 h2, fun _ => exec_blur_bufferSizeMismatch_iff hb h1 h2⟩

/-! ### Error entry and priority (R145, R146) -/

/-- Settles O19: an error writes the three fields of STATUS, which spell its word. -/
theorem errorEntry : Obligations.ErrorEntry := fun s =>
  ⟨State.statusWord_of_record rfl rfl rfl, State.statusWord_of_record rfl rfl rfl,
    State.statusWord_of_record rfl rfl rfl, fun e => ⟨rfl, rfl, rfl, ⟨rfl, rfl⟩, s.raise_sameButRecord e⟩⟩

/-- Settles O20: busy comes before decoding, decoding before the tests of BLUR, the radius before the length. -/
theorem errorPriority : Obligations.ErrorPriority := fun _ w =>
  ⟨deliver_busy w, fun hb =>
    ⟨fun ⟨_, hillegal⟩ => deliver_illegal hb hillegal,
      fun hblur hr => (deliver_command hb hblur).trans (exec_blur_badRadius hb hr),
      fun hblur h1 h2 hl => (deliver_command hb hblur).trans (exec_blur_badLength hb h1 h2 hl)⟩⟩

/-! ### The way back (R148, R149) -/

/-- While not busy no word but NOP's looks at the record of the command before it: what it answers is the same with the
record cleared first. -/
theorem deliver_clearRecord {w : Word} (hb : s.busy = false) (hw : decode w ≠ .command .nop) :
    deliver w s.clearRecord = deliver w s := by
  have hb' : s.clearRecord.busy = false := rfl
  cases hd : decode w with
  | illegal why => exact (deliver_illegal hb' hd).trans (deliver_illegal hb hd).symm
  | command i =>
    rw [deliver_command hb' hd, deliver_command hb hd]
    cases i with
    | nop => exact absurd hd hw
    | blur => exact exec_blur_clearRecord hb
    | divc a => exact exec_divc_clearRecord hb a
    | ack => exact (exec_ack_idle hb').trans (exec_ack_idle hb).symm

/-- Settles O21: an error leaves the block idle, and clears to the same state as the record it replaced. -/
theorem errorRecordIsReplaced : Obligations.ErrorRecordIsReplaced := fun s e _ _ hw =>
  (deliver_clearRecord (s := s.raise e) rfl hw).symm

/-! ### The ENGINE (R144) -/

/-- A running pass in range takes its micro-step, and without one the ENGINE rests. -/
theorem engineTurn_next (h : s.EngineOk) : ∃ t, engineTurn s = .next t := by
  cases hp : s.phase.pass? with
  | none => exact ⟨s, engineTurn_idle s (by simp [State.busy, hp])⟩
  | some p =>
    cases hs : s.sub with
    | seeding => exact ⟨_, (h p hp).engineTurn_seed hp hs⟩
    | sliding => exact ⟨_, (h p hp).engineTurn_slide hp hs⟩

/-- A turn of the ENGINE keeps RESULT or, at the end of the last line, writes OK (42_blur_command.md R115). -/
theorem engineTurn_result (h : engineTurn s = .next t) : t.result = s.result ∨ t.result = .ok := by
  obtain ⟨-, rfl⟩ | ⟨p, -, -, ⟨-, -, rfl⟩ | ⟨-, -, rfl⟩⟩ := engineTurn_cases s t h
  · exact .inl rfl
  · exact .inl (s.seed_result p)
  · cases s.slide_end p with
    | inside _ _ result => exact .inl result
    | nextLine _ _ result => exact .inl result
    | colPass _ result => exact .inl result
    | complete _ result => exact .inr result

/-- Settles O33: the turn answers a next state, and no turn writes an error. -/
theorem engineNeverFails : Obligations.EngineNeverFails := fun s h => by
  obtain ⟨t, ht⟩ := engineTurn_next h
  refine ⟨t, ht, engineTurn_errcode ht, fun hfail => ?_⟩
  obtain hr | hr := engineTurn_result ht
  · rwa [hr]
  · simp [hr]

end Sys2Proof.Machine
end

section
/-! The reset input and the hazards between HOST and ENGINE (70_reset_and_hazards.md R170, R171, R174, R175, R177): O9,
O18, O28, O29, O43. -/

namespace Sys2Proof.Machine

variable {s : State} {e : Event} {m : Pix}

/-! ### A running blur and the argument registers (R175) -/

/-- SEED reads the latched parameters and PIX, no argument register (10_state.md R21). -/
theorem State.seed_storeReg (s : State) (r : HostReg) (v : Word) (p : Pass) :
    (s.storeReg r v).seed p = (s.seed p).storeReg r v := by
  cases r <;> rfl

/-- The sequencer compares POS and LINE with the latched size (42_blur_command.md R114). -/
theorem State.advance_storeReg (s : State) (r : HostReg) (v : Word) (p : Pass) :
    (s.storeReg r v).advance p = (s.advance p).storeReg r v := by
  unfold State.advance
  rw [apply_ite (State.storeReg · r v), apply_ite (State.storeReg · r v)]
  cases r <;> cases p <;> rfl

/-- SLIDE as SEED: the channels and the cursors read no argument register, nor does the sequencer (10_state.md R21). -/
theorem State.slide_storeReg (s : State) (r : HostReg) (v : Word) (p : Pass) :
    (s.storeReg r v).slide p = (s.slide p).storeReg r v := by
  rw [State.slide_eq s, ← State.advance_storeReg]
  cases r <;> rfl

theorem State.seedFault_storeReg (s : State) (r : HostReg) (v : Word) (p : Pass) :
    (s.storeReg r v).seedFault p = s.seedFault p := by
  cases r <;> rfl

theorem State.slideFault_storeReg (s : State) (r : HostReg) (v : Word) (p : Pass) :
    (s.storeReg r v).slideFault p = s.slideFault p := by
  cases r <;> rfl

theorem seedStep_storeReg (s : State) (r : HostReg) (v : Word) (p : Pass) :
    seedStep (s.storeReg r v) p = mapOut (State.storeReg · r v) (seedStep s p) := by
  rw [seedStep, seedStep, State.seedFault_storeReg, State.seed_storeReg]
  cases s.seedFault p <;> rfl

theorem slideStep_storeReg (s : State) (r : HostReg) (v : Word) (p : Pass) :
    slideStep (s.storeReg r v) p = mapOut (State.storeReg · r v) (slideStep s p) := by
  rw [slideStep, slideStep, State.slideFault_storeReg, State.slide_storeReg]
  cases s.slideFault p <;> rfl

/-- Settles O43: a store leaves alone what says which micro-step comes next, and commutes with either. -/
theorem runningBlurIgnoresRegisterWrites : Obligations.RunningBlurIgnoresRegisterWrites := fun s r v => by
  rw [engineTurn, engineTurn, State.storeReg_resetIn, State.storeReg_phase, State.storeReg_sub]
  cases s.resetIn with
  | true => rfl
  | false =>
    cases s.phase.pass? with
    | none => rfl
    | some p =>
      cases s.sub with
      | seeding => exact seedStep_storeReg s r v p
      | sliding => exact slideStep_storeReg s r v p

/-! ### Asserting the reset input (R170, R171) -/

/-- Every HOST register reads 0 once reset is asserted (10_state.md R31). -/
theorem State.readReg_assertReset (s : State) (r : HostReg) : s.assertReset.readReg r = 0 := by
  cases r <;> rfl

/-- A reset frees R, G and B bytes of the buffer at most. -/
theorem PixEffect.read_unfreed (h : PixEffect s .resetAssert m) {a : Nat}
    (ha : a % 4 = 3 ∨ 4 * s.latW.toNat * s.latH.toNat ≤ a) : Pix.read m a = s.memRead a := by
  cases h with
  | same => rfl
  | freed =>
    rw [freedPix_read, if_neg (by omega)]
    rfl

theorem step_resetAssert {rest : List Event} (hev : s.events = .resetAssert :: rest) (hr : s.resetIn = false) :
    step s = .next { s with events := rest }.assertReset := by
  rw [step_event s .resetAssert rest hev nofun]
  exact if_neg (by simp [hr])

/-- Settles O28: the registers are written with 0, and PIX is left as it is but for the bytes a cut blur frees. -/
theorem assertingReset : Obligations.AssertingReset := fun s rest hev hr =>
  have hpix := State.assertReset_pixEffect { s with events := rest }
  ⟨_, step_resetAssert hev hr, rfl, rfl, State.readReg_assertReset _, rfl, rfl, rfl,
    fun hb => .of_pix (hpix.eq_of_idle hb nofun), fun _ => hpix.read_unfreed⟩

/-! ### While the reset input is asserted (R170, R171) -/

theorem engineTurn_asserted (h : s.resetIn = true) : engineTurn s = .next s := if_pos h

theorem act_host_asserted (h : s.resetIn = true) (he : e.isHost = true) :
    act e s = .refused .accessDuringReset := by
  cases e with
  | engine => cases he
  | resetAssert => cases he
  | resetRelease => cases he
  | _ => exact outOfReset_asserted s _ h

/-- While reset is asserted WAIT, too, is taken off the events before it happens. -/
theorem step_asserted {rest : List Event} (h : s.resetIn = true) (hev : s.events = e :: rest) :
    step s = act e { s with events := rest } := by
  by_cases hw : e = .wait
  · subst hw
    simp [step, turn, hev, h]
  · exact step_event s e rest hev hw

/-- Settles O29: the ENGINE rests, the HOST's five statements are refused, and the level is all that RESET moves. -/
theorem whileResetIsAsserted : Obligations.WhileResetIsAsserted := by
  refine fun s h => ⟨engineTurn_asserted h, fun e rest hev => ?_⟩
  rw [step_asserted h hev]
  refine ⟨fun he => act_host_asserted h ?_, ?_, ?_⟩
  · obtain ⟨_, _, _, rfl⟩ | ⟨_, _, rfl⟩ | ⟨_, _, rfl⟩ | ⟨_, rfl⟩ | rfl := he <;> rfl
  · rintro rfl
    rfl
  · rintro rfl
    exact if_pos h

/-! ### Commands that are dropped, and the BLUR that is refused (R174, R177) -/

theorem exec_busy (i : Instr) (h : s.busy = true) : exec i s = .next s := by
  cases i <;> exact ifNotBusy_busy s _ h

/-- Settles O9: the busy check comes before decoding, and each command makes it again. -/
theorem commandsWhileBusyAreLost : Obligations.CommandsWhileBusyAreLost := fun _ h =>
  ⟨fun w => deliver_busy w h, fun i => exec_busy i h⟩

theorem exec_blur_beyond (h : s.busy = false) (h1 : 1 ≤ s.argR) (h2 : s.argR ≤ 254)
    (hl : s.argW * s.argH * 4 = s.argLen) (hw : s.argW ≠ 0) (hh : s.argH ≠ 0) (hp : s.platform.pixSize < s.argLen) :
    exec .blur s = .refused .bufferBeyondPix := by
  rw [exec, execBlur, ifNotBusy_idle _ _ h, if_neg (by omega), if_neg (not_not.mpr hl), if_neg (by omega), if_pos hp]

/-- Settles O18: the memory is BLUR's last test. -/
theorem blurBeyondTheMemoryIsRefused : Obligations.BlurBeyondTheMemoryIsRefused := fun _ => exec_blur_beyond

end Sys2Proof.Machine
end

section
/-! Words of the test vectors (95_test_vectors.md T4), by the clauses of the decoder: O7. -/

namespace Sys2Proof

variable {w : Word}

/-! ### The three reasons for ILLEGAL (30_encoding.md R67, R68) -/

theorem decode_reservedField (hrsv : rsvField w ≠ 0) : decode w = .illegal .reservedField := if_pos hrsv

theorem decode_argField (hrsv : rsvField w = 0) (hopc : opcField w ≠ 0x02) (harg : argField w ≠ 0) :
    decode w = .illegal .argField := by
  rw [decode, if_neg (not_not.mpr hrsv), if_neg hopc, if_pos harg]

theorem decode_unassigned (hrsv : rsvField w = 0) (harg : argField w = 0) (hopc : 0x04 ≤ opcField w) :
    decode w = .illegal .opcode := by
  have hne : ∀ c : BitVec 8, c < 0x04 → opcField w ≠ c := fun c hc h => by bv_omega
  rw [decode, if_neg (not_not.mpr hrsv), if_neg (hne _ (by decide)), if_neg (not_not.mpr harg),
    if_neg (hne _ (by decide)), if_neg (hne _ (by decide)), if_neg (hne _ (by decide))]

/-- Settles O7: four words are those of commands, and each of the others fails one test of the decoder. -/
theorem decodeOfWordsWrittenOut : Obligations.DecodeOfWordsWrittenOut :=
  ⟨decode_encode (i := .nop) rfl, decode_encode (i := .blur) rfl,
    decode_encode (i := .divc 127) rfl, decode_encode (i := .ack) rfl,
    decode_unassigned (by decide) (by decide) (by decide),
    decode_argField (by decide) (by decide) (by decide),
    decode_reservedField (by decide)⟩

end Sys2Proof
end
